-- ==== Sys2Proof/Word.lean ====
section
/-! DEFINITION. The words of the core: bytes, the 24-bit bin-group word, the control word, the packet buffer. -/

namespace Sys2Proof

/-- A byte, bit 0 the least significant (00_scope R10). -/
abbrev Byte := BitVec 8

/-- The 24-bit pattern `{byte2, byte1, byte0}` of a bin-group (30_encoding R65). -/
abbrev Word24 := BitVec 24

/-- The control word `{wide, mode[1:0]}` of a request (30_encoding R60). -/
abbrev Ctl := BitVec 3

/-- The 64-bit receive timestamp (10_state R29). -/
abbrev Timestamp := BitVec 64

/-- The only address space of the core: the packet buffer of one request (10_state R37), as
(offset, byte) cells. Its canonical form is `Memory.wf`; an offset that is not listed does not
exist (20_memory R44: "no byte outside it exists"). -/
abbrev Memory := List Host.Cell

end Sys2Proof
end

