-- ==== Sys2Proof/Config.lean ====
section
/-! DEFINITION. What an implementation fixes: the OPEN parameters of the instance and the constants of
the formats (00_scope R6, R7, R9). -/

namespace Sys2Proof

/-- The OPEN parameters of one instance, "constants of the instance, fixed when it is built"
(70_reset_and_hazards R170). They stand in the state, as plain data that no step changes, because
the form of the step is fixed (log 1). Nothing relates the two bin counts (00_scope R7). -/
structure Params where
  /-- `NB_NARROW`: raw bins of a narrow packet (00_scope R6, D1). -/
  nbNarrow : Nat
  /-- `NB_WIDE`: raw bins of a wide packet (00_scope R7, D1). -/
  nbWide   : Nat
  /-- `LEN_W`: bits of a length (00_scope R9, D5). -/
  lenW     : Nat
  /-- `HDR_W`: bits of the opaque header (00_scope R9, D14). -/
  hdrW     : Nat
  deriving DecidableEq, Repr

/-- PRESUMED, unsafe: the recommended defaults, which the spec itself takes from general knowledge
(00_scope R6, R7, R9; 93 G1). Only `State.reset` uses them (log 1). -/
def Params.recommended : Params :=
  { nbNarrow := 56, nbWide := 128, lenW := 16, hdrW := 0 }

/-- `BG_BYTES`: bytes of a bin-group (00_scope R9). -/
abbrev Config.bgBytes : Nat := 3

/-- `RI_BYTES`: bytes of the radar-info suffix (00_scope R9). -/
abbrev Config.riBytes : Nat := 3

/-- `IDX_OFFSET`: what `MAXIDX` adds to the sign-extended field (00_scope R9). -/
abbrev Config.idxOffset : Byte := 29#8

/-- `IDX_NEG_MIN`: least index field treated as negative (00_scope R9, D18, log 5). -/
abbrev Config.idxNegMin : Byte := 32#8

end Sys2Proof
end

