-- ==== Sys2Proof/Syntax.lean ====
section
/-! DEFINITION. The instructions of the core, one constructor per row of the opcode table, and the
transactions that carry them in encoded form. -/

namespace Sys2Proof

/-- The scan mode (10_state R27). The core tells only `disabled` from the other three. -/
inductive ScanMode where
  | disabled | background | manual | channelScan
  deriving DecidableEq, Repr

/-- A bin-group: three bytes that "are always read together" (10_state R34, 20_memory R44). -/
structure BinGroup where
  b0 : Byte
  b1 : Byte
  b2 : Byte
  deriving DecidableEq, Repr

/-- What a request gives `PARSE` beside its control word (10_state R26). -/
structure ParseOperands where
  /-- The opaque rest of the receive metadata, `HDR_W` bits as one number; never read (R28, log 7). -/
  hdr : Nat
  /-- The receive timestamp (R29). -/
  ts  : Timestamp
  /-- The packet buffer (20_memory R40). -/
  raw : Memory
  deriving DecidableEq, Repr

/-- The operations of spec/opcode_table.json with their operands: seven selections of `PARSE` by
the control word (30_encoding R62) and the four Bin Decoder primitives (40_bin_decoder R91 to R94). -/
inductive Instr where
  /-- `PARSE.DIS`: mode Disabled; the wide bit is any (41_sample_parser R112). -/
  | parseDis (wide : Bool) (ops : ParseOperands)
  /-- `PARSE.N.BG`: narrow, Background (R115). -/
  | parseNBg (ops : ParseOperands)
  /-- `PARSE.N.MAN`: narrow, Manual (R115). -/
  | parseNMan (ops : ParseOperands)
  /-- `PARSE.N.CS`: narrow, ChannelScan (R115). -/
  | parseNCs (ops : ParseOperands)
  /-- `PARSE.W.BG`: wide, Background (R116). -/
  | parseWBg (ops : ParseOperands)
  /-- `PARSE.W.MAN`: wide, Manual (R116). -/
  | parseWMan (ops : ParseOperands)
  /-- `PARSE.W.CS`: wide, ChannelScan (R116). -/
  | parseWCs (ops : ParseOperands)
  /-- `MAXMAG` (40_bin_decoder R91). -/
  | maxmag (bins : BinGroup)
  /-- `MAXIDX` (R92). -/
  | maxidx (bins : BinGroup)
  /-- `BMW` (R93). -/
  | bmw (bins : BinGroup)
  /-- `BINDEC` (R94). -/
  | bindec (bins : BinGroup)
  deriving DecidableEq, Repr

/-- A request as it crosses the core's boundary (10_state R26): the two fields of the control word
as bits, and the operands. `req.len` is the length of `raw` and is not stored twice (R26, log 6). -/
structure Request where
  mode : BitVec 2
  wide : Bool
  hdr  : Nat
  ts   : Timestamp
  raw  : Memory
  deriving DecidableEq, Repr

/-- The name that selects a Bin Decoder function: the BG24 rows share one bit pattern and "are not
selected by a bit pattern" (30_encoding R72, log 4). -/
inductive BinFn where
  | maxmag | maxidx | bmw | bindec
  deriving DecidableEq, Repr

/-- One encoded transaction. DESIGN CHOICE, safe: beside the host's requests (41_sample_parser R110)
the model lets a Bin Decoder function be applied to a 24-bit bin-group (log 4). -/
inductive Transaction where
  | parse (req : Request)
  | apply (fn : BinFn) (bins : Word24)
  deriving DecidableEq, Repr

end Sys2Proof
end

