-- ==== Sys2Proof/WellFormed.lean ====
section
/-! DEFINITION. Which parameters, buffers, requests and instructions the spec allows. -/

namespace Sys2Proof

/-- Both expected lengths fit in `LEN_W` bits (00_scope R9, D5); nothing else is asked (D19). -/
def Params.wf (p : Params) : Bool :=
  decide (p.nbNarrow + 7 < 2 ^ p.lenW) && decide (p.nbWide + 10 < 2 ^ p.lenW)

/-- The canonical form of a packet buffer: the offsets are 0, 1, …, len - 1, in that order
(10_state R37, 20_memory R40). -/
def Memory.wf (m : Memory) : Bool :=
  decide (m.map Prod.fst = List.range m.length)

/-- A buffer in canonical form that `LEN_W` bits can count, and a header of `HDR_W` bits
(10_state R26, D5, D14). -/
def ParseOperands.wf (p : Params) (ops : ParseOperands) : Bool :=
  ops.raw.wf && decide (ops.raw.length < 2 ^ p.lenW) && decide (ops.hdr < 2 ^ p.hdrW)

/-- An instruction is well formed when its operands are; every bin-group is (30_encoding R70). -/
def Instr.wf (p : Params) : Instr → Bool
  | .parseDis _ ops => ops.wf p
  | .parseNBg ops => ops.wf p
  | .parseNMan ops => ops.wf p
  | .parseNCs ops => ops.wf p
  | .parseWBg ops => ops.wf p
  | .parseWMan ops => ops.wf p
  | .parseWCs ops => ops.wf p
  | .maxmag _ => true
  | .maxidx _ => true
  | .bmw _ => true
  | .bindec _ => true

/-- The operands a request carries (10_state R26). -/
def Request.operands (r : Request) : ParseOperands :=
  { hdr := r.hdr, ts := r.ts, raw := r.raw }

/-- A transaction is well formed when its request's operands are. -/
def Transaction.wf (p : Params) : Transaction → Bool
  | .parse r => r.operands.wf p
  | .apply _ _ => true

end Sys2Proof
end

