-- ==== Sys2Proof/Decode.lean ====
section
/-! DEFINITION. The decoder, from a transaction's bits to an instruction or a rejection by name, and
after it the encoder (30_encoding R60 to R65, R72). -/

namespace Sys2Proof

/-! ### Bit fields -/

/-- DESIGN CHOICE of the spec (D2), unsafe for claims about the numbers: the four modes in listing
order (30_encoding R61, log 8). -/
def ScanMode.code : ScanMode → BitVec 2
  | .disabled => 0b00#2
  | .background => 0b01#2
  | .manual => 0b10#2
  | .channelScan => 0b11#2

/-- The mode of a two-bit pattern; all four are defined (30_encoding R61). -/
def ScanMode.ofCode (c : BitVec 2) : ScanMode :=
  if c = 0b00#2 then .disabled
  else if c = 0b01#2 then .background
  else if c = 0b10#2 then .manual
  else .channelScan

/-- The control word `{req.wide, req.mode[1:0]}` (30_encoding R60, D3, log 8). -/
def Request.ctl (r : Request) : Ctl :=
  BitVec.ofBool r.wide ++ r.mode

/-- `req.len`: the number of bytes of `req.raw` (10_state R26). -/
def Request.len (r : Request) : Nat :=
  r.raw.length

/-- The bin-group in the pattern `{byte2, byte1, byte0}` (30_encoding R65). -/
def BinGroup.ofWord (w : Word24) : BinGroup :=
  { b0 := w.extractLsb' 0 8, b1 := w.extractLsb' 8 8, b2 := w.extractLsb' 16 8 }

/-- The pattern `{byte2, byte1, byte0}` of a bin-group (30_encoding R65). -/
def BinGroup.toWord (b : BinGroup) : Word24 :=
  b.b2 ++ b.b1 ++ b.b0

/-! ### The selection table -/

/-- The seven `PARSE` rows of the opcode table (30_encoding R62, R72). -/
inductive CtlSel where
  | dis | nBg | nMan | nCs | wBg | wMan | wCs
  deriving DecidableEq, Repr

/-- One `PARSE` row: selected when `ctl & mask == pattern` (30_encoding R72). -/
structure CtlRow where
  sel     : CtlSel
  mask    : Ctl
  pattern : Ctl
  deriving DecidableEq, Repr

/-- The `match` and `mask` columns of the opcode table (30_encoding R72). -/
def ctlRows : List CtlRow :=
  [ { sel := .dis,  mask := 0b011#3, pattern := 0b000#3 },
    { sel := .nBg,  mask := 0b111#3, pattern := 0b001#3 },
    { sel := .nMan, mask := 0b111#3, pattern := 0b010#3 },
    { sel := .nCs,  mask := 0b111#3, pattern := 0b011#3 },
    { sel := .wBg,  mask := 0b111#3, pattern := 0b101#3 },
    { sel := .wMan, mask := 0b111#3, pattern := 0b110#3 },
    { sel := .wCs,  mask := 0b111#3, pattern := 0b111#3 } ]

/-- Whether a row is selected by a control word (30_encoding R72). -/
def CtlRow.accepts (row : CtlRow) (c : Ctl) : Bool :=
  c &&& row.mask == row.pattern

/-- The row a control word selects; exactly one always does (30_encoding R72). -/
def selectRow (c : Ctl) : Option CtlSel :=
  (ctlRows.find? (·.accepts c)).map (·.sel)

/-- The instruction of a row, with the operands of its request; only `PARSE.DIS` keeps the wide bit,
which its row leaves free. -/
def CtlSel.instr (wide : Bool) (ops : ParseOperands) : CtlSel → Instr
  | .dis => .parseDis wide ops
  | .nBg => .parseNBg ops
  | .nMan => .parseNMan ops
  | .nCs => .parseNCs ops
  | .wBg => .parseWBg ops
  | .wMan => .parseWMan ops
  | .wCs => .parseWCs ops

/-- The instruction of a Bin Decoder function, applied to a bin-group. -/
def BinFn.instr (b : BinGroup) : BinFn → Instr
  | .maxmag => .maxmag b
  | .maxidx => .maxidx b
  | .bmw => .bmw b
  | .bindec => .bindec b

/-! ### The decoder -/

/-- Why bits are no instruction. -/
inductive DecodeError where
  /-- No row selects this control word. None is such (30_encoding R62); safe. -/
  | noRow (c : Ctl)
  /-- A word of 3 to 8 bits given as a control word has a bit above the three of R60 set; safe
  (log 17). -/
  | notAControlWord (w : Nat)
  /-- A number above 24 bits given as a bin-group (30_encoding R65); safe. -/
  | notABinGroup (w : Nat)
  /-- Neither 3 to 8 bits, which the model reads as CTL3 (log 17), nor the 24 of BG24
  (30_encoding R63); safe. -/
  | noFormat (nbits : Nat)
  deriving DecidableEq, Repr

/-- The decoder: total, rejecting by name. -/
def decode : Transaction → Except DecodeError Instr
  | .parse r =>
    match selectRow r.ctl with
    | some sel => .ok (sel.instr r.wide r.operands)
    | none => .error (.noRow r.ctl)
  | .apply fn w => .ok (fn.instr (BinGroup.ofWord w))

/-- The request with this control word and every operand bit 0: an empty buffer (`req.len` = 0). -/
def Request.bare (c : Ctl) : Request :=
  { mode := c.extractLsb' 0 2, wide := c.getLsbD 2, hdr := 0, ts := 0#64, raw := [] }

/-- The transaction that `nbits` bits `w` of the opcode table's numbering stand for: a CTL3 word or a
BG24 word (30_encoding R63).
DESIGN CHOICE: CTL3 has 3 bits and its serialisation is OPEN (R63, D4); the model reads a bare word of
any 3 to 8 bits as a CTL3 word, whose bits above the third must be 0, and has no format of any other
number of bits but 24. Unsafe only for a claim that 4 to 8 bits are no control word (log 17).
DESIGN CHOICE, safe: a BG24 word alone names no function (R72), and is read as the application
`BINDEC` that `PARSE` makes of it (log 4). The operand bits that no word gives are 0 (log 3). -/
def wordTransaction (nbits w : Nat) : Except DecodeError Transaction :=
  if nbits = 24 then
    if w < 16777216 then .ok (.apply .bindec (BitVec.ofNat 24 w)) else .error (.notABinGroup w)
  else if 3 ≤ nbits ∧ nbits ≤ 8 then
    if w < 8 then .ok (.parse (Request.bare (BitVec.ofNat 3 w))) else .error (.notAControlWord w)
  else .error (.noFormat nbits)

/-- The decoder on bare bits. -/
def decodeWord (nbits w : Nat) : Except DecodeError Instr :=
  match wordTransaction nbits w with
  | .ok t => decode t
  | .error e => .error e

/-- The instruction the decoder reads from bits numbered as the opcode table numbers them. -/
def decodeTableWord (nbits w : Nat) : Option Instr :=
  match decodeWord nbits w with
  | .ok i => some i
  | .error _ => none

/-! ### The encoder -/

/-- The request that selects a mode and a shape and carries these operands (10_state R26). -/
def Request.build (mode : ScanMode) (wide : Bool) (ops : ParseOperands) : Request :=
  { mode := mode.code, wide := wide, hdr := ops.hdr, ts := ops.ts, raw := ops.raw }

/-- The encoder: the transaction that carries an instruction (30_encoding R62, R65). -/
def encode : Instr → Transaction
  | .parseDis wide ops => .parse (Request.build .disabled wide ops)
  | .parseNBg ops => .parse (Request.build .background false ops)
  | .parseNMan ops => .parse (Request.build .manual false ops)
  | .parseNCs ops => .parse (Request.build .channelScan false ops)
  | .parseWBg ops => .parse (Request.build .background true ops)
  | .parseWMan ops => .parse (Request.build .manual true ops)
  | .parseWCs ops => .parse (Request.build .channelScan true ops)
  | .maxmag b => .apply .maxmag b.toWord
  | .maxidx b => .apply .maxidx b.toWord
  | .bmw b => .apply .bmw b.toWord
  | .bindec b => .apply .bindec b.toWord

/-- The bits the opcode table gives a transaction: how many, in whole bytes, and their value. -/
def tableWord : Transaction → Nat × Nat
  | .parse r => (8, r.ctl.toNat)
  | .apply _ w => (24, w.toNat)

end Sys2Proof
end

