-- ==== Sys2Proof/Machine/State.lean ====
section
/-! DEFINITION. The records that leave the core, the state of the model, the reasons a step can stop,
and the state after reset. -/

namespace Sys2Proof.Machine

/-! ### The response (10_state R30 to R35) -/

/-- The results of `MAXMAG`, `MAXIDX` and `BMW` on one bin-group (10_state R32). -/
structure DecodedBinGroup where
  /-- `u16`, of which the upper four bits are 0. -/
  maxMagnitude : BitVec 16
  /-- `u8`, the renormalized peak index. -/
  maxIndex     : Byte
  /-- `u8`, of which the upper two bits are 0. -/
  bitmapWeight : Byte
  deriving DecidableEq, Repr

/-- The three bytes of the radar-info suffix, passed through (10_state R33, 30_encoding R68). -/
structure RadarInfo where
  pulseLengthPrimary  : Byte
  pulseLengthExtended : Byte
  pulseBandwidthInfo  : Byte
  deriving DecidableEq, Repr

/-- "One or two `DecodedBinGroup`": the constructor is the tag `shape` (10_state R31, D16). -/
inductive DecodedGroups where
  | narrow (all : DecodedBinGroup)
  | wide (lower upper : DecodedBinGroup)
  deriving DecidableEq, Repr

/-- The output record (10_state R31). -/
structure DecodedSample where
  mode        : ScanMode
  timestamp   : Timestamp
  /-- The raw per-bin amplitudes, a copy in offset order. -/
  rawBins     : List Byte
  groups      : DecodedGroups
  maxExponent : Byte
  radar       : RadarInfo
  deriving DecidableEq, Repr

/-- The two kinds of error (10_state R35, 60_exceptions R140). -/
inductive ParseError where
  | invalidMode
  | truncatedPacket (expected actual : Nat)
  deriving DecidableEq, Repr

/-- A response is exactly one of a sample and an error; an error has no sample fields
(10_state R30, D13, log 15). -/
inductive Response where
  | ok (sample : DecodedSample)
  | err (e : ParseError)
  deriving DecidableEq, Repr

/-- The result of a Bin Decoder function applied on its own (40_bin_decoder R90, log 4). -/
inductive BinResult where
  | magnitude (v : BitVec 16)
  | index (v : Byte)
  | weight (v : Byte)
  | group (g : DecodedBinGroup)
  deriving DecidableEq, Repr

/-- What one transaction delivers. -/
inductive Output where
  | response (r : Response)
  | bin (v : BinResult)
  deriving DecidableEq, Repr

/-! ### The reasons a step can stop -/

/-- The machine stops. -/
inductive Fault where
  /-- Raised by a slice read of the packet buffer at an offset the buffer does not have, which does
  not exist (20_memory R44). Safe: every read of a canonical buffer is inside it (20_memory R40). -/
  | readOutsideBuffer (offset : Nat)
  deriving DecidableEq, Repr

/-- No meaning for what was to be executed. -/
inductive Refusal where
  /-- Raised by an arm of `exec` that has no meaning yet. No arm is such; safe. -/
  | notModelled (mnemonic : String)
  /-- Raised by the step on bits that are no instruction. Every transaction is one
  (30_encoding R62); safe. -/
  | undecodable (e : DecodeError)
  deriving DecidableEq, Repr

/-! ### The state -/

/-- The state of the model. The core itself holds none (10_state R20): the parameters are constants
of the instance, and the two lists are the host's side of the boundary (log 1, log 2). -/
structure State where
  /-- The parameters the instance was built with (70_reset_and_hazards R170). -/
  params    : Params
  /-- The transactions the host presents and the core has not taken yet, oldest first (R181). -/
  pending   : List Transaction
  /-- What the core has delivered, oldest first (R181). -/
  delivered : List Output
  deriving DecidableEq, Repr

/-- An instance with parameters `p` right after reset: idle, nothing pending, nothing produced
(10_state R39, 70_reset_and_hazards R170). -/
def State.resetWith (p : Params) : State :=
  { params := p, pending := [], delivered := [] }

/-- The machine right after reset. PRESUMED, unsafe: the instance has the recommended parameters
(log 1). -/
def State.reset : State :=
  State.resetWith Params.recommended

end Sys2Proof.Machine
end

