-- ==== Sys2Proof/Machine/Ops.lean ====
section
/-! DEFINITION. The named operations over the packet buffer and over the two sides of the boundary, and
raising an error. -/

namespace Sys2Proof

/-! ### The packet buffer -/

/-- The cells of bytes that lie one after the other from an offset on. -/
def Memory.ofBytesFrom (off : Nat) : List Byte → Memory
  | [] => []
  | b :: bs => (off, b) :: Memory.ofBytesFrom (off + 1) bs

/-- The buffer the host presents: its bytes in offset order, offset 0 first (20_memory R42). -/
def Memory.ofBytes (bs : List Byte) : Memory :=
  Memory.ofBytesFrom 0 bs

/-- The bytes of a buffer, in the order of its cells. -/
def Memory.bytes (m : Memory) : List Byte :=
  m.map Prod.snd

/-- `raw[i]` (00_scope R11); `none` where the buffer has no such offset. -/
def Memory.read : Memory → Nat → Option Byte
  | [], _ => none
  | (k, b) :: m, i => if k = i then some b else Memory.read m i

/-- `MemRead(off, n)`: the slice `raw[off..off+n)` in offset order (00_scope R12). An offset the
buffer does not have is a fault (log 10). -/
def Memory.slice (m : Memory) (off : Nat) : Nat → Except Machine.Fault (List Byte)
  | 0 => .ok []
  | n + 1 =>
    match m.read off with
    | none => .error (.readOutsideBuffer off)
    | some b =>
      match Memory.slice m (off + 1) n with
      | .ok bs => .ok (b :: bs)
      | .error f => .error f

namespace Machine

/-! ### The boundary -/

/-- Take the next transaction, whole: control fields and buffer are one snapshot (20_memory R45). -/
def State.fetch (s : State) : Option (Transaction × State) :=
  match s.pending with
  | [] => none
  | t :: ts => some (t, { s with pending := ts })

/-- Deliver one output; nothing else changes (10_state R30, R36). -/
def State.deliver (s : State) (o : Output) : State :=
  { s with delivered := s.delivered ++ [o] }

/-- The host presents a request; it may be any (60_exceptions R156). -/
def State.present (s : State) (r : Request) : State :=
  { s with pending := s.pending ++ [.parse r] }

/-- Reset between two transactions: the instance keeps its parameters (70_reset_and_hazards R170). -/
def State.assertReset (s : State) : State :=
  State.resetWith s.params

/-! ### Errors -/

/-- `raise`: the transaction ends and its response is the error and nothing else
(60_exceptions R146). No state is saved and there is no return (R147). -/
def raise (e : ParseError) : Except Fault Response :=
  .ok (.err e)

/-- End a transaction of `PARSE`: deliver its response. -/
def answer (r : Except Fault Response) (s : State) : Host.Outcome State Fault Refusal :=
  match r with
  | .ok rsp => .next (s.deliver (.response rsp))
  | .error f => .fault f

end Machine
end Sys2Proof
end

