-- ==== Sys2Proof/Machine/Operands.lean ====
section
/-! DEFINITION. The operand forms: constant offsets into the packet that depend on the shape alone
(41_sample_parser R119; maps in 20_memory R47, R48). -/

namespace Sys2Proof.Machine

/-- Bin count of a shape: `NB_NARROW` or `NB_WIDE` (41_sample_parser R110, step 2). -/
def binCount (p : Params) (wide : Bool) : Nat :=
  if wide then p.nbWide else p.nbNarrow

/-- `LEN_NARROW` or `LEN_WIDE`: bins, one or two bin-groups, one exponent byte, radar info
(00_scope R8, 41_sample_parser R114). -/
def expectedLength (p : Params) (wide : Bool) : Nat :=
  if wide then p.nbWide + (2 * Config.bgBytes + 1) + Config.riBytes
  else p.nbNarrow + (Config.bgBytes + 1) + Config.riBytes

/-- `MemRead(off, 1)[0]`. -/
def readByte (m : Memory) (off : Nat) : Except Fault Byte :=
  match m.read off with
  | some b => .ok b
  | none => .error (.readOutsideBuffer off)

/-- `MemRead(off, 3)` as one bin-group, its three bytes together (20_memory R44). -/
def readGroup (m : Memory) (off : Nat) : Except Fault BinGroup :=
  match m.slice off Config.bgBytes with
  | .ok [b0, b1, b2] => .ok { b0 := b0, b1 := b1, b2 := b2 }
  | .ok _ => .error (.readOutsideBuffer off)
  | .error f => .error f

/-- `MemRead(off, 3)` as radar info (30_encoding R68). DESIGN CHOICE of the spec (D15), unsafe: listing
order is byte order, lowest offset first (log 9). -/
def readRadar (m : Memory) (off : Nat) : Except Fault RadarInfo :=
  match m.slice off Config.riBytes with
  | .ok [r0, r1, r2] =>
    .ok { pulseLengthPrimary := r0, pulseLengthExtended := r1, pulseBandwidthInfo := r2 }
  | .ok _ => .error (.readOutsideBuffer off)
  | .error f => .error f

end Sys2Proof.Machine
end

