-- ==== Sys2Proof/Machine/Flags.lean ====
section
/-! DEFINITION. The core has no flag (10_state R23; every operation rule says "Flags: none"). What tells
the outcome of a transaction is a field of its response: the status code, and the shape tag. -/

namespace Sys2Proof.Machine

/-- `rsp.status`: 0 Ok, 1 InvalidMode, 2 TruncatedPacket; 3 is never produced (30_encoding R69).
DESIGN CHOICE of the spec (D6), unsafe for claims about the numbers (log 8). -/
def Response.status : Response → BitVec 2
  | .ok _ => 0#2
  | .err .invalidMode => 1#2
  | .err (.truncatedPacket _ _) => 2#2

/-- The tag `shape` of a sample: false narrow, true wide (10_state R31). -/
def DecodedSample.shape (d : DecodedSample) : Bool :=
  match d.groups with
  | .narrow _ => false
  | .wide _ _ => true

/-- The bits of the output field `mode` (30_encoding R61). -/
def DecodedSample.modeCode (d : DecodedSample) : BitVec 2 :=
  d.mode.code

end Sys2Proof.Machine
end

