-- ==== Sys2Proof/Machine/BinDecoder.lean ====
section
/-! DEFINITION. The Bin Decoder (40_bin_decoder): four total functions of one bin-group. -/

namespace Sys2Proof.Machine

/-- `MAXMAG`: three fragments, each widened to 16 bits before it is shifted, combined with OR
(40_bin_decoder R91). -/
def maxMagnitude (b : BinGroup) : BitVec 16 :=
  let lo := b.b0.setWidth 16 >>> 6
  let mid := b.b1.setWidth 16 <<< 2
  let hi := (b.b2.setWidth 16 &&& 0x0003#16) <<< 10
  lo ||| mid ||| hi

/-- The index field `bins[2][7:2]` in the low six bits of a byte (30_encoding R65, R67). -/
def indexField (b : BinGroup) : Byte :=
  (b.b2 >>> 2) &&& 0x3F#8

/-- `MAXIDX`: a field of 32 or more gets the top three bits set, then 29 is added in 8 bits, the
carry discarded (40_bin_decoder R92). DESIGN CHOICE of the spec (D7, D18), unsafe: the sum wraps, so
fields 32, 33, 34 give 253, 254, 255 (log 5). -/
def maxIndex (b : BinGroup) : Byte :=
  let f := indexField b
  let m := if Config.idxNegMin ≤ f then f ||| 0xE0#8 else f
  m + Config.idxOffset

/-- `BMW`: the low six bits of byte0 (40_bin_decoder R93). -/
def bitmapWeight (b : BinGroup) : Byte :=
  b.b0 &&& 0x3F#8

/-- `BINDEC`: the three results on the same three bytes (40_bin_decoder R94). -/
def decodeGroup (b : BinGroup) : DecodedBinGroup :=
  { maxMagnitude := maxMagnitude b, maxIndex := maxIndex b, bitmapWeight := bitmapWeight b }

/-- `MAXMAG` applied on its own (40_bin_decoder R91, log 4). -/
def execMaxmag (bins : BinGroup) (s : State) : Host.Outcome State Fault Refusal :=
  .next (s.deliver (.bin (.magnitude (maxMagnitude bins))))

/-- `MAXIDX` applied on its own (40_bin_decoder R92, log 4). -/
def execMaxidx (bins : BinGroup) (s : State) : Host.Outcome State Fault Refusal :=
  .next (s.deliver (.bin (.index (maxIndex bins))))

/-- `BMW` applied on its own (40_bin_decoder R93, log 4). -/
def execBmw (bins : BinGroup) (s : State) : Host.Outcome State Fault Refusal :=
  .next (s.deliver (.bin (.weight (bitmapWeight bins))))

/-- `BINDEC` applied on its own (40_bin_decoder R94, log 4). -/
def execBindec (bins : BinGroup) (s : State) : Host.Outcome State Fault Refusal :=
  .next (s.deliver (.bin (.group (decodeGroup bins))))

end Sys2Proof.Machine
end

