-- ==== Sys2Proof/Machine/SampleParser.lean ====
section
/-! DEFINITION. The Sample Parser (41_sample_parser): `PARSE` in the six steps of R110, R111, and its
seven selections. -/

namespace Sys2Proof.Machine

/-- `NARROW_BODY`: slice, decode the one bin-group, assemble (41_sample_parser R115, offsets
20_memory R47). -/
def narrowBody (nb : Nat) (mode : ScanMode) (ops : ParseOperands) : Except Fault DecodedSample := do
  let bins ← ops.raw.slice 0 nb
  let grp ← readGroup ops.raw nb
  let mexp ← readByte ops.raw (nb + 3)
  let radar ← readRadar ops.raw (nb + 4)
  return {
    mode := mode, timestamp := ops.ts, rawBins := bins,
    groups := .narrow (decodeGroup grp), maxExponent := mexp, radar := radar }

/-- `WIDE_BODY` (41_sample_parser R116, offsets 20_memory R48). DESIGN CHOICE of the spec (D15), unsafe:
the lower group lies before the upper one (log 9). -/
def wideBody (nb : Nat) (mode : ScanMode) (ops : ParseOperands) : Except Fault DecodedSample := do
  let bins ← ops.raw.slice 0 nb
  let lower ← readGroup ops.raw nb
  let upper ← readGroup ops.raw (nb + 3)
  let mexp ← readByte ops.raw (nb + 6)
  let radar ← readRadar ops.raw (nb + 7)
  return {
    mode := mode, timestamp := ops.ts, rawBins := bins,
    groups := .wide (decodeGroup lower) (decodeGroup upper), maxExponent := mexp, radar := radar }

/-- `PARSE` (41_sample_parser R110): mode check, shape, exact-length check, then the body of the
shape. No byte is read unless both checks pass (R111). The header is never read (10_state R28). -/
def parse (p : Params) (mode : ScanMode) (wide : Bool) (ops : ParseOperands) :
    Except Fault Response :=
  if mode = .disabled then raise .invalidMode
  else if ops.raw.length ≠ expectedLength p wide then
    raise (.truncatedPacket (expectedLength p wide) ops.raw.length)
  else if wide then Response.ok <$> wideBody (binCount p wide) mode ops
  else Response.ok <$> narrowBody (binCount p wide) mode ops

/-- `PARSE` of a whole request, its mode read from the two bits (41_sample_parser R110). The decoder
reaches the same response through the selection table (30_encoding R62). -/
def parseRequest (p : Params) (r : Request) : Except Fault Response :=
  parse p (ScanMode.ofCode r.mode) r.wide r.operands

/-- `PARSE.DIS` (41_sample_parser R112). -/
def execParseDis (wide : Bool) (ops : ParseOperands) (s : State) :
    Host.Outcome State Fault Refusal :=
  answer (parse s.params .disabled wide ops) s

/-- `PARSE.N.BG` (41_sample_parser R115). -/
def execParseNBg (ops : ParseOperands) (s : State) : Host.Outcome State Fault Refusal :=
  answer (parse s.params .background false ops) s

/-- `PARSE.N.MAN` (41_sample_parser R115). -/
def execParseNMan (ops : ParseOperands) (s : State) : Host.Outcome State Fault Refusal :=
  answer (parse s.params .manual false ops) s

/-- `PARSE.N.CS` (41_sample_parser R115). -/
def execParseNCs (ops : ParseOperands) (s : State) : Host.Outcome State Fault Refusal :=
  answer (parse s.params .channelScan false ops) s

/-- `PARSE.W.BG` (41_sample_parser R116). -/
def execParseWBg (ops : ParseOperands) (s : State) : Host.Outcome State Fault Refusal :=
  answer (parse s.params .background true ops) s

/-- `PARSE.W.MAN` (41_sample_parser R116). -/
def execParseWMan (ops : ParseOperands) (s : State) : Host.Outcome State Fault Refusal :=
  answer (parse s.params .manual true ops) s

/-- `PARSE.W.CS` (41_sample_parser R116). -/
def execParseWCs (ops : ParseOperands) (s : State) : Host.Outcome State Fault Refusal :=
  answer (parse s.params .channelScan true ops) s

end Sys2Proof.Machine
end

