-- ==== Sys2Proof/Machine/Dispatch.lean ====
section
/-! DEFINITION. One arm per constructor of Instr, each a direct call of that instruction's meaning. -/

namespace Sys2Proof.Machine

def exec (i : Instr) (s : State) : Host.Outcome State Fault Refusal :=
  match i with
  | .parseDis wide ops => Sys2Proof.Machine.execParseDis wide ops s
  | .parseNBg ops => Sys2Proof.Machine.execParseNBg ops s
  | .parseNMan ops => Sys2Proof.Machine.execParseNMan ops s
  | .parseNCs ops => Sys2Proof.Machine.execParseNCs ops s
  | .parseWBg ops => Sys2Proof.Machine.execParseWBg ops s
  | .parseWMan ops => Sys2Proof.Machine.execParseWMan ops s
  | .parseWCs ops => Sys2Proof.Machine.execParseWCs ops s
  | .maxmag bins => Sys2Proof.Machine.execMaxmag bins s
  | .maxidx bins => Sys2Proof.Machine.execMaxidx bins s
  | .bmw bins => Sys2Proof.Machine.execBmw bins s
  | .bindec bins => Sys2Proof.Machine.execBindec bins s

end Sys2Proof.Machine
end

