-- ==== Sys2Proof/Machine/Step.lean ====
section
/-! DEFINITION. One step: one whole transaction (10_state R38), or nothing while the core is idle. -/

namespace Sys2Proof.Machine

/-- Take the next transaction, decode it, execute it. With none pending the core is idle and nothing
changes: it "produces no response until it receives a request" (70_reset_and_hazards R170, log 18). -/
def step (s : State) : Host.Outcome State Fault Refusal :=
  match s.fetch with
  | none => .next s
  | some (t, s') =>
    match decode t with
    | .ok i => exec i s'
    | .error e => .refused (.undecodable e)

/-- `s` with the transaction of these bits presented first, every operand bit above them 0; bits that
are no transaction cannot be presented (log 3). -/
def State.withFetchWord (s : State) (nbits w : Nat) : State :=
  match wordTransaction nbits w with
  | .ok t => { s with pending := t :: s.pending }
  | .error _ => s

end Sys2Proof.Machine
end

