-- ==== Sys2Proof/Safety.lean ====
section
/-! DEFINITION. What a good state and a safe run are, in the terms the statements use. -/

namespace Sys2Proof

/-- Whether a transaction is one a host can present (41_sample_parser R110). -/
def Transaction.isRequest : Transaction → Bool
  | .parse _ => true
  | .apply _ _ => false

namespace Machine

/-- The ranges of one decoded bin-group (10_state R32, 40_bin_decoder R97). -/
def DecodedBinGroup.wf (g : DecodedBinGroup) : Bool :=
  decide (g.maxMagnitude.toNat ≤ 4095) &&
    (decide (g.maxIndex.toNat ≤ 60) || decide (253 ≤ g.maxIndex.toNat)) &&
    decide (g.bitmapWeight.toNat ≤ 63)

/-- The ranges of the one or two groups of a sample. -/
def DecodedGroups.wf : DecodedGroups → Bool
  | .narrow all => all.wf
  | .wide lower upper => lower.wf && upper.wf

/-- What the spec says of every sample: an active mode (41_sample_parser R118), as many raw bins as
the shape has (10_state R31), groups in range. -/
def DecodedSample.wf (p : Params) (d : DecodedSample) : Bool :=
  decide (d.mode ≠ .disabled) && decide (d.rawBins.length = binCount p d.shape) && d.groups.wf

/-- What the spec says of every response: of a `TruncatedPacket`, that `expected` is the length of a
shape, that `expected` and `actual` differ and that both fit in `LEN_W` bits
(60_exceptions R142, 10_state R35). -/
def Response.wf (p : Params) : Response → Bool
  | .ok d => d.wf p
  | .err .invalidMode => true
  | .err (.truncatedPacket e a) =>
    (decide (e = expectedLength p false) || decide (e = expectedLength p true)) &&
      decide (e ≠ a) && decide (e < 2 ^ p.lenW) && decide (a < 2 ^ p.lenW)

/-- The ranges of a Bin Decoder result (40_bin_decoder R91, R92, R93). -/
def BinResult.wf : BinResult → Bool
  | .magnitude v => decide (v.toNat ≤ 4095)
  | .index v => decide (v.toNat ≤ 60) || decide (253 ≤ v.toNat)
  | .weight v => decide (v.toNat ≤ 63)
  | .group g => g.wf

/-- What the spec says of every output. -/
def Output.wf (p : Params) : Output → Bool
  | .response r => r.wf p
  | .bin v => v.wf

/-- The invariant: legal parameters, well-formed requests ahead, well-formed outputs behind. -/
abbrev State.Inv (s : State) : Prop :=
  s.params.wf = true ∧ (∀ t ∈ s.pending, t.wf s.params = true) ∧
    (∀ o ∈ s.delivered, o.wf s.params = true)

/-- Whether an output is a response. -/
def Output.isResponse : Output → Bool
  | .response _ => true
  | .bin _ => false

/-- Only host requests ahead and only responses behind: what a run of the hardware looks like
(70_reset_and_hazards R181). The model's other states come from log 4. -/
abbrev State.HostOnly (s : State) : Prop :=
  (∀ t ∈ s.pending, t.isRequest = true) ∧ (∀ o ∈ s.delivered, o.isResponse = true)

/-- One byte of memory: the byte at an offset of the buffer of the k-th pending request. -/
def State.readByte (s : State) (k offset : Nat) : Option Byte :=
  match s.pending[k]? with
  | some (.parse r) => r.raw.read offset
  | _ => none

/-- The next state of an outcome, if it is one. -/
def nextOf : Host.Outcome State Fault Refusal → Option State
  | .next s => some s
  | _ => none

end Machine
end Sys2Proof
end

