-- ==== Sys2Proof/Certificates/Slice0/Obligations.lean ====
section
/-! DEFINITION. The statements for the provers. A statement that rests on a choice of the model or on a
decision of the spec (a D row, a log entry) says so in its docstring and has basis derived. -/

open Sys2Proof Sys2Proof.Machine

/-! ### The Bin Decoder -/

/-- 40_bin_decoder R91: MAXMAG is `{bins[2][1:0], bins[1][7:0], bins[0][7:6]}`, equally the sum of the
three fragments, zero-extended to 16 bits, 0 to 4095. -/
def Obligations.MaxmagIsTheTwelveBitField : Prop :=
  ∀ b : BinGroup,
    maxMagnitude b = (b.b2.extractLsb' 0 2 ++ b.b1 ++ b.b0.extractLsb' 6 2).setWidth 16 ∧
    (maxMagnitude b).toNat = b.b0.toNat / 64 + 4 * b.b1.toNat + 1024 * (b.b2.toNat % 4) ∧
    (maxMagnitude b).toNat ≤ 4095

/-- 40_bin_decoder R92: MAXIDX is the 8-bit sign extension of `bins[2][7:2]` plus 29 modulo 256, and
its closed form. The values at fields 32, 33, 34 are the spec's decisions D7 and D18 (log 5). -/
def Obligations.MaxidxSignExtendsThenAddsTwentyNine : Prop :=
  ∀ b : BinGroup,
    maxIndex b = (b.b2.extractLsb' 2 6).signExtend 8 + 29#8 ∧
    (maxIndex b).toNat =
      (if b.b2.toNat / 4 < 32 then b.b2.toNat / 4 + 29
       else if b.b2.toNat / 4 < 35 then b.b2.toNat / 4 + 221
       else b.b2.toNat / 4 - 35)

/-- 40_bin_decoder R92: the result set is {0..60} and {253, 254, 255}, all of it, and equal results
come from equal fields. Rests on D7 and D18 as the closed form does (log 5). -/
def Obligations.MaxidxRangeAndInjectivity : Prop :=
  (∀ v : Byte, (∃ b : BinGroup, maxIndex b = v) ↔ v.toNat ≤ 60 ∨ 253 ≤ v.toNat) ∧
  (∀ b c : BinGroup, maxIndex b = maxIndex c ↔ b.b2.toNat / 4 = c.b2.toNat / 4)

/-- 40_bin_decoder R93: BMW is the low six bits of byte0, 0 to 63. -/
def Obligations.BmwIsTheLowSixBits : Prop :=
  ∀ b : BinGroup, bitmapWeight b = b.b0 &&& 0x3F#8 ∧
    (bitmapWeight b).toNat = b.b0.toNat % 64 ∧ (bitmapWeight b).toNat ≤ 63

/-- 40_bin_decoder R97, 20_memory R41: in the 24-bit little-endian word `w` of a bin-group, MAXMAG is
`w[17:6]`, BMW is `w[5:0]` and the index field is `w[23:18]`. -/
def Obligations.LittleEndianWordView : Prop :=
  ∀ b : BinGroup,
    let w := b.b0.toNat + 256 * b.b1.toNat + 65536 * b.b2.toNat
    b.toWord.toNat = w ∧ (maxMagnitude b).toNat = w / 64 % 4096 ∧
      (bitmapWeight b).toNat = w % 64 ∧ (indexField b).toNat = w / 262144

/-- 40_bin_decoder R94: BINDEC is the three results on the same bytes and loses no bit of them. That it
loses none is a choice where it rests on MAXIDX at fields 32, 33, 34: the wrap and the literal 32 are
the spec's decisions D7 and D18 (log 5); clamped to 0, or with field 32 taken as 29, two fields would
share a result. -/
def Obligations.BindecIsInjective : Prop :=
  (∀ b : BinGroup, decodeGroup b = ⟨maxMagnitude b, maxIndex b, bitmapWeight b⟩) ∧
  (∀ b c : BinGroup, decodeGroup b = decodeGroup c → b = c)

/-- 40_bin_decoder R90 to R94: each Bin Decoder row completes on every bin-group and in every state,
delivering its result and changing nothing else. That a row can be run on its own, and where its
result goes, is the model's choice (log 4). -/
def Obligations.BinDecoderRowsComplete : Prop :=
  ∀ (b : BinGroup) (s : State),
    exec (.maxmag b) s =
      .next { s with delivered := s.delivered ++ [.bin (.magnitude (maxMagnitude b))] } ∧
    exec (.maxidx b) s =
      .next { s with delivered := s.delivered ++ [.bin (.index (maxIndex b))] } ∧
    exec (.bmw b) s =
      .next { s with delivered := s.delivered ++ [.bin (.weight (bitmapWeight b))] } ∧
    exec (.bindec b) s =
      .next { s with delivered := s.delivered ++ [.bin (.group (decodeGroup b))] }

/-! ### PARSE -/

/-- 60_exceptions R145: mode Disabled answers the one error `InvalidMode` whatever the length, the
contents and the shape bit, and changes nothing else; both for the instruction and for a step on a
request. -/
def Obligations.DisabledAlwaysAnswersInvalidMode : Prop :=
  (∀ (wide : Bool) (ops : ParseOperands) (s : State),
    exec (.parseDis wide ops) s =
      .next { s with delivered := s.delivered ++ [.response (.err .invalidMode)] }) ∧
  (∀ (r : Request) (rest : List Transaction) (s : State),
    ScanMode.ofCode r.mode = .disabled → s.pending = .parse r :: rest →
    step s = .next { s with
      pending := rest, delivered := s.delivered ++ [.response (.err .invalidMode)] })

/-- 41_sample_parser R114: in the three active modes of either shape, the answer is
`TruncatedPacket(expected, actual)` exactly when the length, shorter or longer, differs from
`NB_NARROW + 7` or `NB_WIDE + 10`; nothing else changes. -/
def Obligations.LengthMismatchAnswersTruncatedPacket : Prop :=
  ∀ (ops : ParseOperands) (s : State),
    (∀ i ∈ [Instr.parseNBg ops, .parseNMan ops, .parseNCs ops],
      exec i s = .next { s with delivered := s.delivered ++
        [.response (.err (.truncatedPacket (s.params.nbNarrow + 7) ops.raw.length))] } ↔
      ops.raw.length ≠ s.params.nbNarrow + 7) ∧
    (∀ i ∈ [Instr.parseWBg ops, .parseWMan ops, .parseWCs ops],
      exec i s = .next { s with delivered := s.delivered ++
        [.response (.err (.truncatedPacket (s.params.nbWide + 10) ops.raw.length))] } ↔
      ops.raw.length ≠ s.params.nbWide + 10)

/-- 41_sample_parser R115, 20_memory R47: a narrow packet (bins, one bin-group, exponent byte, radar
info) of the exact length completes in each active mode with the sample that copies its fields and
decodes its group; nothing else changes. The order of the radar bytes is the spec's decision D15
(log 9). -/
def Obligations.NarrowPacketIsDecoded : Prop :=
  ∀ (s : State) (hdr : Nat) (ts : Timestamp) (bins : List Byte) (g : BinGroup)
    (mexp r0 r1 r2 : Byte),
    bins.length = s.params.nbNarrow →
    let ops : ParseOperands := {
      hdr := hdr, ts := ts,
      raw := Memory.ofBytes (bins ++ [g.b0, g.b1, g.b2, mexp, r0, r1, r2]) }
    let after (mode : ScanMode) : State := { s with delivered := s.delivered ++
      [.response (.ok {
        mode := mode, timestamp := ts, rawBins := bins, groups := .narrow (decodeGroup g),
        maxExponent := mexp, radar := ⟨r0, r1, r2⟩ })] }
    exec (.parseNBg ops) s = .next (after .background) ∧
    exec (.parseNMan ops) s = .next (after .manual) ∧
    exec (.parseNCs ops) s = .next (after .channelScan)

/-- 41_sample_parser R116, 20_memory R48: a wide packet (bins, lower group, upper group, shared
exponent byte, radar info) of the exact length completes in each active mode with the sample that
copies its fields and decodes both groups; nothing else changes. The order of the two groups and of
the radar bytes is the spec's decision D15 (log 9). -/
def Obligations.WidePacketIsDecoded : Prop :=
  ∀ (s : State) (hdr : Nat) (ts : Timestamp) (bins : List Byte) (lo up : BinGroup)
    (mexp r0 r1 r2 : Byte),
    bins.length = s.params.nbWide →
    let ops : ParseOperands := {
      hdr := hdr, ts := ts,
      raw := Memory.ofBytes
        (bins ++ [lo.b0, lo.b1, lo.b2, up.b0, up.b1, up.b2, mexp, r0, r1, r2]) }
    let after (mode : ScanMode) : State := { s with delivered := s.delivered ++
      [.response (.ok {
        mode := mode, timestamp := ts, rawBins := bins,
        groups := .wide (decodeGroup lo) (decodeGroup up),
        maxExponent := mexp, radar := ⟨r0, r1, r2⟩ })] }
    exec (.parseWBg ops) s = .next (after .background) ∧
    exec (.parseWMan ops) s = .next (after .manual) ∧
    exec (.parseWCs ops) s = .next (after .channelScan)

/-- 41_sample_parser R110, 30_encoding R62: a step on a request answers what PARSE gives the whole
request: the selection table and the six-step algorithm agree. Codes by D2, D3 (log 8). -/
def Obligations.StepOnRequestIsParse : Prop :=
  ∀ (s : State) (r : Request) (rest : List Transaction),
    s.pending = .parse r :: rest →
    step s = answer (parseRequest s.params r) { s with pending := rest }

/-- 41_sample_parser R122: a request with a canonical buffer is answered by a sample exactly when
its mode is active and its length is the expected one of its shape. -/
def Obligations.SuccessIffActiveModeAndExactLength : Prop :=
  ∀ (p : Params) (r : Request), r.raw.wf = true →
    ((∃ d, parseRequest p r = .ok (.ok d)) ↔
      ScanMode.ofCode r.mode ≠ .disabled ∧
      r.raw.length = if r.wide then p.nbWide + 10 else p.nbNarrow + 7)

/-- 60_exceptions R140 to R142, 30_encoding R70: PARSE answers an error exactly for the mode Disabled
(`InvalidMode`) or, in an active mode, for a wrong length (`TruncatedPacket` with both lengths);
nothing in the contents of a packet is an error. -/
def Obligations.ErrorsComeFromModeAndLengthOnly : Prop :=
  ∀ (p : Params) (r : Request) (e : ParseError),
    let expected := if r.wide then p.nbWide + 10 else p.nbNarrow + 7
    parseRequest p r = .ok (.err e) ↔
      (ScanMode.ofCode r.mode = .disabled ∧ e = .invalidMode) ∨
      (ScanMode.ofCode r.mode ≠ .disabled ∧ r.raw.length ≠ expected ∧
        e = .truncatedPacket expected r.raw.length)

/-- 70_reset_and_hazards R176: the core trusts the shape bit. Where both shapes have one length, a
buffer of that length is decoded under whichever layout the bit names; where the lengths differ, a
buffer accepted under one bit is a `TruncatedPacket` under the other. -/
def Obligations.ShapeBitIsTrusted : Prop :=
  ∀ (p : Params) (r : Request), r.raw.wf = true → ScanMode.ofCode r.mode ≠ .disabled →
    r.raw.length = (if r.wide then p.nbWide + 10 else p.nbNarrow + 7) →
    (∃ d, parseRequest p r = .ok (.ok d) ∧ d.shape = r.wide) ∧
    (p.nbNarrow + 7 = p.nbWide + 10 →
      ∃ d, parseRequest p { r with wide := !r.wide } = .ok (.ok d) ∧ d.shape = !r.wide) ∧
    (p.nbNarrow + 7 ≠ p.nbWide + 10 →
      parseRequest p { r with wide := !r.wide } = .ok (.err (.truncatedPacket
        (if r.wide then p.nbNarrow + 7 else p.nbWide + 10) r.raw.length)))

/-- 41_sample_parser R122, R118: what a sample holds of its request: mode, timestamp and shape as
presented, the first NB bytes as raw bins, the exponent and radar bytes at the offsets of 20_memory
R47 and R48, and BINDEC of the bytes of each group (offset order by D15, log 9). -/
def Obligations.SampleHoldsTheRequestsFields : Prop :=
  ∀ (p : Params) (r : Request) (d : DecodedSample), r.raw.wf = true →
    parseRequest p r = .ok (.ok d) →
    let nb := if r.wide then p.nbWide else p.nbNarrow
    let mx := if r.wide then nb + 6 else nb + 3
    d.mode = ScanMode.ofCode r.mode ∧ d.timestamp = r.ts ∧ d.shape = r.wide ∧
    d.rawBins = r.raw.bytes.take nb ∧ d.rawBins.length = nb ∧
    r.raw.read mx = some d.maxExponent ∧
    r.raw.read (mx + 1) = some d.radar.pulseLengthPrimary ∧
    r.raw.read (mx + 2) = some d.radar.pulseLengthExtended ∧
    r.raw.read (mx + 3) = some d.radar.pulseBandwidthInfo ∧
    (∃ g : BinGroup, r.raw.read nb = some g.b0 ∧ r.raw.read (nb + 1) = some g.b1 ∧
      r.raw.read (nb + 2) = some g.b2 ∧
      (r.wide = false → d.groups = .narrow (decodeGroup g)) ∧
      (r.wide = true → ∃ u : BinGroup, r.raw.read (nb + 3) = some u.b0 ∧
        r.raw.read (nb + 4) = some u.b1 ∧ r.raw.read (nb + 5) = some u.b2 ∧
        d.groups = .wide (decodeGroup g) (decodeGroup u)))

/-- 41_sample_parser R123: from a sample the whole request except the header can be recovered: two
requests with canonical buffers (log 10) and the same sample differ at most in the header. It rests on
BINDEC losing no bit, and so on the spec's decisions D7 and D18 on MAXIDX (log 5), and on the header
being left out, D14 (log 7). -/
def Obligations.SampleDeterminesRequest : Prop :=
  ∀ (p : Params) (r₁ r₂ : Request) (d : DecodedSample),
    r₁.raw.wf = true → r₂.raw.wf = true →
    parseRequest p r₁ = .ok (.ok d) → parseRequest p r₂ = .ok (.ok d) →
    r₁ = { r₂ with hdr := r₁.hdr }

/-- 40_bin_decoder R96: the same three bytes decode to the same group, whether they are the all-bins
group of a narrow packet or the lower or the upper group of a wide one. Where the two groups of a wide
packet lie is the spec's decision D15 (log 9). -/
def Obligations.ShapeIndependence : Prop :=
  ∀ (p : Params) (rn rw : Request) (dn dw : DecodedSample),
    rn.wide = false → rw.wide = true →
    parseRequest p rn = .ok (.ok dn) → parseRequest p rw = .ok (.ok dw) →
    ∃ all lower upper, dn.groups = .narrow all ∧ dw.groups = .wide lower upper ∧
      ((∀ k < 3, rn.raw.read (p.nbNarrow + k) = rw.raw.read (p.nbWide + k)) → lower = all) ∧
      ((∀ k < 3, rn.raw.read (p.nbNarrow + k) = rw.raw.read (p.nbWide + 3 + k)) → upper = all)

/-- 10_state R28: no rule reads the header; the response is the same for every header (D14, log 7). -/
def Obligations.HeaderIsIgnored : Prop :=
  ∀ (p : Params) (r : Request) (hdr : Nat),
    parseRequest p { r with hdr := hdr } = parseRequest p r

/-- 10_state R30, 30_encoding R69: the three status codes, of which 3 is never produced. The numbers
are the spec's decision D6 (log 8). -/
def Obligations.StatusCodes : Prop :=
  ∀ r : Response,
    (r.status = 0#2 ↔ ∃ d, r = .ok d) ∧ (r.status = 1#2 ↔ r = .err .invalidMode) ∧
    (r.status = 2#2 ↔ ∃ e a, r = .err (.truncatedPacket e a)) ∧ r.status ≠ 3#2

/-! ### Encodings -/

/-- 30_encoding R60 to R65: decoding the encoding of any instruction, with any operands, gives it
back. That a request or a function name carries it is the model's form (log 4, log 8). -/
def Obligations.DecodeEncodeRoundTrip : Prop :=
  ∀ i : Instr, decode (encode i) = .ok i

/-- 30_encoding R60 to R65: each transaction has one meaning and the encoder finds it again, bit by
bit (log 4, log 8). -/
def Obligations.EncodeDecodeRoundTrip : Prop :=
  ∀ t : Transaction, ∃ i, decode t = .ok i ∧ encode i = t

/-- 30_encoding R72: exactly one PARSE row matches any control word (codes by D2, D3, log 8). -/
def Obligations.EveryControlWordSelectsOneRow : Prop :=
  ∀ c : Ctl, (ctlRows.filter (·.accepts c)).length = 1 ∧ (selectRow c).isSome = true

/-- 30_encoding R62, R65: words written out from the tables decode to what they stand for. Choices it
rests on: 24 bare bits are BINDEC, though R72 says that no bits select these rows (log 4); a control
word stands in a whole byte (log 17); the operands are all zero (log 3); the codes of modes and shape
are the spec's decisions D2 and D3 (log 8). -/
def Obligations.KnownWordsDecode : Prop :=
  decodeTableWord 8 0b000 = some (.parseDis false ⟨0, 0#64, []⟩) ∧
  decodeTableWord 8 0b100 = some (.parseDis true ⟨0, 0#64, []⟩) ∧
  decodeTableWord 8 0b010 = some (.parseNMan ⟨0, 0#64, []⟩) ∧
  decodeTableWord 8 0b111 = some (.parseWCs ⟨0, 0#64, []⟩) ∧
  decodeTableWord 24 0b110000110101101010100101 =
    some (.bindec ⟨0b10100101#8, 0b01011010#8, 0b11000011#8⟩)

/-! ### The machine -/

/-- 10_state R36, R38, 20_memory R40: what any instruction leaves unchanged when it gives a next
state: the parameters, the requests still pending, every byte of their buffers, every output already
delivered; one output is added. Applies to all eleven rows, the Bin Decoder rows run on their own by
the model's choice (log 4). -/
def Obligations.ExecChangesOnlyTheDeliveredOutput : Prop :=
  ∀ (i : Instr) (s t : State), exec i s = .next t →
    t.params = s.params ∧ t.pending = s.pending ∧
    (∀ k offset, t.readByte k offset = s.readByte k offset) ∧
    ∃ o, t.delivered = s.delivered ++ [o]

/-- 10_state R38: a step takes the oldest pending transaction, decodes it and is the execution of the
decoded instruction on the state without it. -/
def Obligations.StepRunsTheDecodedInstruction : Prop :=
  ∀ (s : State) (t : Transaction) (rest : List Transaction) (i : Instr),
    s.pending = t :: rest → decode t = .ok i → step s = exec i { s with pending := rest }

/-- 70_reset_and_hazards R170: an idle core produces no response until a request arrives. That
idling is a step that changes nothing is the model's choice (log 18). -/
def Obligations.IdleStepChangesNothing : Prop :=
  ∀ s : State, s.pending = [] → step s = .next s

/-- 10_state R38: one transaction, one output, in order: a step that gives a next state takes the
oldest transaction away, adds exactly one output behind the earlier ones, a response exactly when the
transaction is a request, and keeps the parameters. That a transaction may be no request, a Bin
Decoder function applied on its own, whose output is no response, is the model's choice (log 4), as
are the two lists (log 2). -/
def Obligations.StepAnswersExactlyOneTransaction : Prop :=
  ∀ (s s' : State) (t : Transaction) (rest : List Transaction),
    s.pending = t :: rest → step s = .next s' →
    s'.params = s.params ∧ s'.pending = rest ∧
    ∃ o, s'.delivered = s.delivered ++ [o] ∧ o.isResponse = t.isRequest

/-- The invariant that every step keeps: legal parameters (00_scope R9), canonical buffers that LEN_W
bits can count (10_state R26), and outputs in the ranges of the spec (10_state R31, R32, R35, R118):
an active mode and NB raw bins in every sample, `expected` different from `actual` in every
`TruncatedPacket`, every decoded field in its range (the index range by D7 and D18, log 5). The idle step that keeps it
is the model's choice (log 18), as are outputs that are no responses (log 4). -/
def Obligations.StepKeepsTheInvariant : Prop :=
  ∀ s t : State, s.Inv → step s = .next t → t.Inv

/-- The invariant holds after reset: with the recommended parameters (log 1) and with any legal ones. -/
def Obligations.ResetMeetsTheInvariant : Prop :=
  State.reset.Inv ∧ ∀ p : Params, p.wf = true → (State.resetWith p).Inv

/-- 41_sample_parser R110 ("It is total"), 20_memory R40, 70_reset_and_hazards R180: from every state
whose pending buffers are canonical a step answers a next state, whose pending buffers are canonical
again: no fault and no refusal is ever reached, whatever the modes, shapes, lengths and contents. The
cells of a buffer and their canonical form are the model's (log 10); that a step with nothing pending
is a next state is its choice (log 18), and so are pending Bin Decoder applications (log 4). -/
def Obligations.CanonicalBuffersNeverStop : Prop :=
  ∀ s : State, (∀ r, Transaction.parse r ∈ s.pending → r.raw.wf = true) →
    ∃ t, step s = .next t ∧ ∀ r, Transaction.parse r ∈ t.pending → r.raw.wf = true

/-- 70_reset_and_hazards R181: a run over a list of requests given to a freshly reset instance
answers them all, in order, each by PARSE from its own request alone. That requests wait in a list and
responses gather in one is the model's form (log 2), as is the canonical form of a buffer (log 10). -/
def Obligations.RunAnswersEachRequestInOrder : Prop :=
  ∀ (p : Params) (rs : List Request), (∀ r ∈ rs, r.raw.wf = true) →
    ∃ rsps : List Response,
      List.Forall₂ (fun r rsp => parseRequest p r = .ok rsp) rs rsps ∧
      Host.Core.run Sys2Proof.core rs.length
          { State.resetWith p with pending := rs.map .parse } =
        .next { State.resetWith p with delivered := rsps.map .response }

/-- 10_state R20, 41_sample_parser R124: equal transactions give equal outputs, whatever was pending
or delivered besides, earlier errors included: if one state answers, so does the other, with the same
output. The transactions that are no requests are the model's choice (log 4). -/
def Obligations.OutputDependsOnTheTransactionAlone : Prop :=
  ∀ (s₁ s₂ u₁ : State) (t : Transaction) (rest₁ rest₂ : List Transaction),
    s₁.params = s₂.params → s₁.pending = t :: rest₁ → s₂.pending = t :: rest₂ →
    step s₁ = .next u₁ →
    ∃ o u₂, step s₂ = .next u₂ ∧ u₁.delivered = s₁.delivered ++ [o] ∧
      u₂.delivered = s₂.delivered ++ [o]

/-- 41_sample_parser R110 ("the one operation a host can request"): from a state with requests only,
a step leads to a state with requests and responses only. The model's other states come from its own
choice (log 4), and so does the idle step (log 18). -/
def Obligations.HostRunsDeliverResponsesOnly : Prop :=
  ∀ s t : State, s.HostOnly → step s = .next t → t.HostOnly

/-- 10_state R39, 70_reset_and_hazards R170: reset leaves the core idle with no response, whatever
was before, and keeps the parameters (D9, log 12). That the idle step from reset is a next state, the
reset state itself, is the model's choice (log 18). -/
def Obligations.ResetLeavesTheCoreIdle : Prop :=
  State.reset.pending = [] ∧ State.reset.delivered = [] ∧ step State.reset = .next State.reset ∧
  ∀ s : State, s.assertReset = { params := s.params, pending := [], delivered := [] }

/-- 70_reset_and_hazards R171: the response to the first request after reset is what PARSE gives for
that request alone. Reset between transactions is D9 (log 12), the list the request waits in the
model's form (log 2). -/
def Obligations.FirstRequestAfterReset : Prop :=
  ∀ (s : State) (r : Request),
    step (s.assertReset.present r) = answer (parseRequest s.params r) s.assertReset

/-- The model's loader (log 3): bits that the decoder reads as an instruction (log 4, log 17),
presented as the next transaction, are run by the very next step. -/
def Obligations.PresentedWordRunsNext : Prop :=
  ∀ (s : State) (nbits w : Nat) (i : Instr), decodeTableWord nbits w = some i →
    step (s.withFetchWord nbits w) = exec i s
end

