-- ==== Sys2Proof/Laws/Memory.lean ====
section
/-! SUPPORT. The packet buffer: its canonical form, and what a read and a slice answer. -/

namespace Sys2Proof
open Machine (Fault)

@[simp] theorem Memory.length_ofBytesFrom (off : Nat) (bs : List Byte) :
    (Memory.ofBytesFrom off bs).length = bs.length := by
  induction bs generalizing off with
  | nil => rfl
  | cons b bs ih => simp [Memory.ofBytesFrom, ih]

@[simp] theorem Memory.length_ofBytes (bs : List Byte) :
    (Memory.ofBytes bs).length = bs.length :=
  Memory.length_ofBytesFrom 0 bs

@[simp] theorem Memory.bytes_ofBytesFrom (off : Nat) (bs : List Byte) :
    (Memory.ofBytesFrom off bs).bytes = bs := by
  induction bs generalizing off with
  | nil => rfl
  | cons b bs ih =>
    show b :: (Memory.ofBytesFrom (off + 1) bs).bytes = b :: bs
    rw [ih]

@[simp] theorem Memory.bytes_ofBytes (bs : List Byte) : (Memory.ofBytes bs).bytes = bs :=
  Memory.bytes_ofBytesFrom 0 bs

theorem Memory.offsets_ofBytesFrom (off : Nat) (bs : List Byte) :
    (Memory.ofBytesFrom off bs).map Prod.fst = List.range' off bs.length := by
  induction bs generalizing off with
  | nil => rfl
  | cons b bs ih => simp [Memory.ofBytesFrom, ih, List.range']

/-- The buffer a host presents is in canonical form. -/
@[simp] theorem Memory.wf_ofBytes (bs : List Byte) : (Memory.ofBytes bs).wf = true := by
  simp [Memory.wf, Memory.ofBytes, Memory.offsets_ofBytesFrom, List.range_eq_range']

theorem Memory.eq_ofBytesFrom {m : Memory} {off : Nat}
    (h : m.map Prod.fst = List.range' off m.length) : m = Memory.ofBytesFrom off m.bytes := by
  induction m generalizing off with
  | nil => rfl
  | cons c m ih =>
    obtain ⟨k, b⟩ := c
    simp only [List.map_cons, List.length_cons, List.range'_succ, List.cons.injEq] at h
    obtain ⟨rfl, h⟩ := h
    show (k, b) :: m = (k, b) :: Memory.ofBytesFrom (k + 1) (Memory.bytes m)
    rw [← ih h]

/-- A buffer in canonical form is its bytes laid out from offset 0. -/
theorem Memory.eq_ofBytes_of_wf {m : Memory} (h : m.wf = true) : m = Memory.ofBytes m.bytes :=
  Memory.eq_ofBytesFrom (by simpa [Memory.wf, List.range_eq_range'] using h)

@[simp] theorem Memory.length_bytes (m : Memory) : m.bytes.length = m.length :=
  List.length_map _

/-- Canonical buffers with the same bytes are the same. -/
theorem Memory.eq_of_bytes_eq {m n : Memory} (hm : m.wf = true) (hn : n.wf = true)
    (h : m.bytes = n.bytes) : m = n := by
  rw [Memory.eq_ofBytes_of_wf hm, Memory.eq_ofBytes_of_wf hn, h]

theorem Memory.read_ofBytesFrom (off i : Nat) (bs : List Byte) :
    (Memory.ofBytesFrom off bs).read i = if off ≤ i then bs[i - off]? else none := by
  induction bs generalizing off with
  | nil => simp [Memory.ofBytesFrom, Memory.read]
  | cons b bs ih =>
    simp only [Memory.ofBytesFrom, Memory.read, ih]
    by_cases h : off = i
    · subst h; simp
    · by_cases h' : off + 1 ≤ i
      · have : i - off = (i - (off + 1)) + 1 := by omega
        simp [h, h', this, show off ≤ i by omega]
      · simp [h, h', show ¬ off ≤ i by omega]

/-- Reading offset `i` of a presented buffer gives its byte `i`; beyond its end there is none. -/
@[simp] theorem Memory.read_ofBytes (i : Nat) (bs : List Byte) :
    (Memory.ofBytes bs).read i = bs[i]? := by
  simp [Memory.ofBytes, Memory.read_ofBytesFrom]

/-- A slice answers exactly the bytes at its offsets. -/
theorem Memory.slice_eq_ok {m : Memory} {off n : Nat} {bs : List Byte} :
    m.slice off n = .ok bs ↔ bs.length = n ∧ ∀ k < n, m.read (off + k) = bs[k]? := by
  induction n generalizing off bs with
  | zero =>
    simp only [Memory.slice, Except.ok.injEq]
    constructor
    · rintro rfl; simp
    · rintro ⟨h, -⟩; exact (List.length_eq_zero_iff.mp h).symm
  | succ n ih =>
    simp only [Memory.slice]
    cases hr : m.read off with
    | none =>
      simp only [reduceCtorEq, false_iff, not_and]
      intro hl h
      have := h 0 (by omega)
      rw [Nat.add_zero, hr] at this
      rw [eq_comm, List.getElem?_eq_none_iff] at this
      omega
    | some b =>
      cases hs : m.slice (off + 1) n with
      | error f =>
        simp only [reduceCtorEq, false_iff, not_and]
        intro hl h
        cases bs with
        | nil => simp at hl
        | cons c cs =>
          have hcs := (ih (off := off + 1) (bs := cs)).mpr
            ⟨by simpa using hl, fun k hk => by
              have := h (k + 1) (by omega)
              rwa [List.getElem?_cons_succ, show off + (k + 1) = off + 1 + k by omega] at this⟩
          rw [hs] at hcs
          cases hcs
      | ok cs =>
        obtain ⟨hlen, hall⟩ := (ih (off := off + 1) (bs := cs)).mp hs
        simp only [Except.ok.injEq]
        constructor
        · rintro rfl
          refine ⟨by simp [hlen], fun k hk => ?_⟩
          cases k with
          | zero => simpa using hr
          | succ k =>
            have := hall k (by omega)
            rw [List.getElem?_cons_succ, ← this]
            congr 1; omega
        · rintro ⟨hl, h⟩
          cases bs with
          | nil => simp at hl
          | cons d ds =>
            have h0 := h 0 (by omega)
            simp only [Nat.add_zero, hr, List.getElem?_cons_zero, Option.some.injEq] at h0
            have hds := (ih (off := off + 1) (bs := ds)).mpr
              ⟨by simpa using hl, fun k hk => by
                have := h (k + 1) (by omega)
                rwa [List.getElem?_cons_succ, show off + (k + 1) = off + 1 + k by omega] at this⟩
            rw [hs, Except.ok.injEq] at hds
            rw [h0, hds]

/-- A slice inside a presented buffer is that stretch of its bytes. -/
theorem Memory.slice_ofBytes {bs : List Byte} {off n : Nat} (h : off + n ≤ bs.length) :
    (Memory.ofBytes bs).slice off n = .ok ((bs.drop off).take n) := by
  refine Memory.slice_eq_ok.mpr ⟨by simp; omega, fun k hk => ?_⟩
  simp [hk]

end Sys2Proof
end

