-- ==== Sys2Proof/Laws/State.lean ====
section
/-! SUPPORT. One lemma per field per update of State, and what fetching answers. -/

namespace Sys2Proof.Machine

@[simp] theorem State.resetWith_params (p : Params) : (State.resetWith p).params = p := rfl
@[simp] theorem State.resetWith_pending (p : Params) : (State.resetWith p).pending = [] := rfl
@[simp] theorem State.resetWith_delivered (p : Params) : (State.resetWith p).delivered = [] := rfl

@[simp] theorem State.deliver_params (s : State) (o : Output) :
    (s.deliver o).params = s.params := rfl
@[simp] theorem State.deliver_pending (s : State) (o : Output) :
    (s.deliver o).pending = s.pending := rfl
@[simp] theorem State.deliver_delivered (s : State) (o : Output) :
    (s.deliver o).delivered = s.delivered ++ [o] := rfl

@[simp] theorem State.present_params (s : State) (r : Request) :
    (s.present r).params = s.params := rfl
@[simp] theorem State.present_pending (s : State) (r : Request) :
    (s.present r).pending = s.pending ++ [.parse r] := rfl
@[simp] theorem State.present_delivered (s : State) (r : Request) :
    (s.present r).delivered = s.delivered := rfl

@[simp] theorem State.assertReset_params (s : State) : s.assertReset.params = s.params := rfl
@[simp] theorem State.assertReset_pending (s : State) : s.assertReset.pending = [] := rfl
@[simp] theorem State.assertReset_delivered (s : State) : s.assertReset.delivered = [] := rfl

@[simp] theorem State.withFetchWord_params (s : State) (nbits w : Nat) :
    (s.withFetchWord nbits w).params = s.params := by
  unfold State.withFetchWord; split <;> rfl
@[simp] theorem State.withFetchWord_delivered (s : State) (nbits w : Nat) :
    (s.withFetchWord nbits w).delivered = s.delivered := by
  unfold State.withFetchWord; split <;> rfl

/-- Bits that are a transaction stand before all that is pending. -/
theorem State.withFetchWord_pending {s : State} {nbits w : Nat} {t : Transaction}
    (h : wordTransaction nbits w = .ok t) :
    (s.withFetchWord nbits w).pending = t :: s.pending := by
  simp [State.withFetchWord, h]

/-- Nothing is fetched exactly while nothing is pending. -/
theorem State.fetch_eq_none {s : State} : s.fetch = none ↔ s.pending = [] := by
  cases h : s.pending <;> simp [State.fetch, h]

/-- What is fetched is the oldest pending transaction; the rest stays, all else is unchanged. -/
theorem State.fetch_eq_some {s s' : State} {t : Transaction} :
    s.fetch = some (t, s') ↔ ∃ ts, s.pending = t :: ts ∧ s' = { s with pending := ts } := by
  cases h : s.pending with
  | nil => simp [State.fetch, h]
  | cons u us =>
    simp only [State.fetch, h, Option.some.injEq, Prod.mk.injEq, List.cons.injEq]
    constructor
    · rintro ⟨rfl, rfl⟩; exact ⟨us, ⟨rfl, rfl⟩, rfl⟩
    · rintro ⟨ts, ⟨rfl, rfl⟩, rfl⟩; exact ⟨rfl, rfl⟩

end Sys2Proof.Machine
end

