-- ==== Sys2Proof/Laws/Ops.lean ====
section
/-! SUPPORT. What each shared operation can answer, once. -/

namespace Sys2Proof.Machine

@[simp] theorem expectedLength_narrow (p : Params) : expectedLength p false = p.nbNarrow + 7 := rfl
@[simp] theorem expectedLength_wide (p : Params) : expectedLength p true = p.nbWide + 10 := rfl
@[simp] theorem binCount_narrow (p : Params) : binCount p false = p.nbNarrow := rfl
@[simp] theorem binCount_wide (p : Params) : binCount p true = p.nbWide := rfl

/-- A byte read answers the byte at the offset. -/
theorem readByte_eq_ok {m : Memory} {off : Nat} {b : Byte} :
    readByte m off = .ok b ↔ m.read off = some b := by
  cases h : m.read off <;> simp [readByte, h]

theorem list_length_three {α : Type} {l : List α} (h : l.length = 3) : ∃ a b c, l = [a, b, c] := by
  match l, h with
  | [a, b, c], _ => exact ⟨a, b, c, rfl⟩

/-- A group read answers the three bytes from the offset on. -/
theorem readGroup_eq_ok {m : Memory} {off : Nat} {g : BinGroup} :
    readGroup m off = .ok g ↔
      m.read off = some g.b0 ∧ m.read (off + 1) = some g.b1 ∧ m.read (off + 2) = some g.b2 := by
  have key : m.slice off 3 = .ok [g.b0, g.b1, g.b2] ↔
      m.read off = some g.b0 ∧ m.read (off + 1) = some g.b1 ∧ m.read (off + 2) = some g.b2 := by
    rw [Memory.slice_eq_ok]
    constructor
    · rintro ⟨-, h⟩
      exact ⟨by simpa using h 0, by simpa using h 1, by simpa using h 2⟩
    · rintro ⟨h0, h1, h2⟩
      refine ⟨rfl, fun k hk => ?_⟩
      interval_cases k <;> simp [h0, h1, h2]
  rw [← key, readGroup]
  cases h : m.slice off 3 with
  | error f => simp
  | ok bs =>
    obtain ⟨a, b, c, rfl⟩ := list_length_three (Memory.slice_eq_ok.mp h).1
    cases g
    simp

/-- A radar-info read answers the three bytes from the offset on, in listing order. -/
theorem readRadar_eq_ok {m : Memory} {off : Nat} {r : RadarInfo} :
    readRadar m off = .ok r ↔
      m.read off = some r.pulseLengthPrimary ∧ m.read (off + 1) = some r.pulseLengthExtended ∧
        m.read (off + 2) = some r.pulseBandwidthInfo := by
  have key : m.slice off 3 =
        .ok [r.pulseLengthPrimary, r.pulseLengthExtended, r.pulseBandwidthInfo] ↔
      m.read off = some r.pulseLengthPrimary ∧ m.read (off + 1) = some r.pulseLengthExtended ∧
        m.read (off + 2) = some r.pulseBandwidthInfo := by
    rw [Memory.slice_eq_ok]
    constructor
    · rintro ⟨-, h⟩
      exact ⟨by simpa using h 0, by simpa using h 1, by simpa using h 2⟩
    · rintro ⟨h0, h1, h2⟩
      refine ⟨rfl, fun k hk => ?_⟩
      interval_cases k <;> simp [h0, h1, h2]
  rw [← key, readRadar]
  cases h : m.slice off 3 with
  | error f => simp
  | ok bs =>
    obtain ⟨a, b, c, rfl⟩ := list_length_three (Memory.slice_eq_ok.mp h).1
    cases r
    simp

/-- Ending a transaction gives a next state only by delivering its response. -/
theorem answer_eq_next {r : Except Fault Response} {s t : State} :
    answer r s = .next t ↔ ∃ rsp, r = .ok rsp ∧ t = s.deliver (.response rsp) := by
  cases r <;> simp [answer, eq_comm]

/-- The computation of a body, taken apart: each read answers, then the record is assembled. -/
theorem narrowBody_eq_ok {nb : Nat} {mode : ScanMode} {ops : ParseOperands} {d : DecodedSample} :
    narrowBody nb mode ops = .ok d ↔
      ∃ bins grp mexp radar, ops.raw.slice 0 nb = .ok bins ∧ readGroup ops.raw nb = .ok grp ∧
        readByte ops.raw (nb + 3) = .ok mexp ∧ readRadar ops.raw (nb + 4) = .ok radar ∧
        d = { mode := mode, timestamp := ops.ts, rawBins := bins,
              groups := .narrow (decodeGroup grp), maxExponent := mexp, radar := radar } := by
  simp only [narrowBody]
  cases ops.raw.slice 0 nb <;> cases readGroup ops.raw nb <;>
    cases readByte ops.raw (nb + 3) <;> cases readRadar ops.raw (nb + 4) <;>
    simp [bind, Except.bind, pure, Except.pure, eq_comm]

/-- The same for the wide body. -/
theorem wideBody_eq_ok {nb : Nat} {mode : ScanMode} {ops : ParseOperands} {d : DecodedSample} :
    wideBody nb mode ops = .ok d ↔
      ∃ bins lower upper mexp radar, ops.raw.slice 0 nb = .ok bins ∧
        readGroup ops.raw nb = .ok lower ∧ readGroup ops.raw (nb + 3) = .ok upper ∧
        readByte ops.raw (nb + 6) = .ok mexp ∧ readRadar ops.raw (nb + 7) = .ok radar ∧
        d = { mode := mode, timestamp := ops.ts, rawBins := bins,
              groups := .wide (decodeGroup lower) (decodeGroup upper),
              maxExponent := mexp, radar := radar } := by
  simp only [wideBody]
  cases ops.raw.slice 0 nb <;> cases readGroup ops.raw nb <;>
    cases readGroup ops.raw (nb + 3) <;> cases readByte ops.raw (nb + 6) <;>
    cases readRadar ops.raw (nb + 7) <;>
    simp [bind, Except.bind, pure, Except.pure, eq_comm]

/-- Everything `PARSE` can answer: one of the two errors, or the body of the shape, which is reached
only in an active mode and with the exact length. -/
theorem parse_eq_ok {p : Params} {mode : ScanMode} {wide : Bool} {ops : ParseOperands}
    {rsp : Response} :
    parse p mode wide ops = .ok rsp ↔
      (mode = .disabled ∧ rsp = .err .invalidMode) ∨
      (mode ≠ .disabled ∧ ops.raw.length ≠ expectedLength p wide ∧
        rsp = .err (.truncatedPacket (expectedLength p wide) ops.raw.length)) ∨
      (mode ≠ .disabled ∧ ops.raw.length = expectedLength p wide ∧ wide = true ∧
        ∃ d, wideBody p.nbWide mode ops = .ok d ∧ rsp = .ok d) ∨
      (mode ≠ .disabled ∧ ops.raw.length = expectedLength p wide ∧ wide = false ∧
        ∃ d, narrowBody p.nbNarrow mode ops = .ok d ∧ rsp = .ok d) := by
  by_cases hm : mode = .disabled
  · simp [parse, raise, hm, eq_comm]
  by_cases hl : ops.raw.length = expectedLength p wide
  · cases wide with
    | true =>
      cases h : wideBody p.nbWide mode ops <;>
        simp [parse, hm, hl, binCount, h, eq_comm]
    | false =>
      cases h : narrowBody p.nbNarrow mode ops <;>
        simp [parse, hm, hl, binCount, h, eq_comm]
  · simp [parse, raise, hm, hl, eq_comm]

/-- Everything a step can do. -/
theorem step_eq_next {s t : State} :
    step s = .next t ↔
      (s.pending = [] ∧ t = s) ∨
      ∃ u us i, s.pending = u :: us ∧ decode u = .ok i ∧
        exec i { s with pending := us } = .next t := by
  cases hp : s.pending with
  | nil => simp [step, State.fetch, hp, eq_comm]
  | cons u us =>
    simp only [step, State.fetch, hp]
    cases hd : decode u with
    | error e => simp [hd]
    | ok i => simp [hd]

end Sys2Proof.Machine
end

