-- ==== Sys2Proof/Laws/Core.lean ====
section
/-! SUPPORT. A run of the machine, one step at a time, in the model's own types. -/

namespace Sys2Proof.Machine

/-- `k` steps of the machine the host reads, said of the model's own state. -/
abbrev runCore (k : Nat) (s : State) : Host.Outcome State Fault Refusal :=
  Host.Core.run Sys2Proof.core k s

@[simp] theorem runCore_zero (s : State) : runCore 0 s = .next s := rfl

/-- A run goes on from the next state of its first step. -/
theorem runCore_succ_of_next {k : Nat} {s t : State} (h : step s = .next t) :
    runCore (k + 1) s = runCore k t := by
  have h' : Sys2Proof.core.step s = .next t := h
  simp only [runCore, Host.Core.run, h']
  rfl


end Sys2Proof.Machine
end

