-- ==== Sys2Proof/Laws/PerInstr.lean ====
section
/-! SUPPORT. The family EncodesToItsRow: the bits an instruction is encoded in select its own row of the
opcode table and no other. One lemma per constructor. -/

namespace Sys2Proof

/-- The `PARSE` row of an instruction; the Bin Decoder rows are not selected by bits. -/
def Instr.row : Instr → Option CtlSel
  | .parseDis _ _ => some .dis
  | .parseNBg _ => some .nBg
  | .parseNMan _ => some .nMan
  | .parseNCs _ => some .nCs
  | .parseWBg _ => some .wBg
  | .parseWMan _ => some .wMan
  | .parseWCs _ => some .wCs
  | .maxmag _ => none
  | .maxidx _ => none
  | .bmw _ => none
  | .bindec _ => none

/-- The row that a transaction's control word selects, and the number of rows that accept it. -/
def Transaction.row : Transaction → Option CtlSel × Nat
  | .parse r => (selectRow r.ctl, (ctlRows.filter (·.accepts r.ctl)).length)
  | .apply _ _ => (none, 0)

/-- A bin-group is the one its word stands for: all 24 bits are kept. -/
@[simp] theorem BinGroup.ofWord_toWord (b : BinGroup) : BinGroup.ofWord b.toWord = b := by
  obtain ⟨b0, b1, b2⟩ := b
  simp only [BinGroup.ofWord, BinGroup.toWord, BinGroup.mk.injEq]
  refine ⟨?_, ?_, ?_⟩ <;> ext k hk <;>
    simp only [BitVec.getElem_extractLsb', BitVec.getLsbD_append]
  · simp [hk]
  · simp [show ¬ 8 + k < 8 by omega, hk]
  · simp [show ¬ 16 + k < 8 by omega, show ¬ 16 + k - 8 < 8 by omega,
      show 16 + k - 8 - 8 = k by omega, BitVec.getLsbD_eq_getElem hk]

/-- A 24-bit word is the one of its bin-group. -/
@[simp] theorem BinGroup.toWord_ofWord (w : Word24) : (BinGroup.ofWord w).toWord = w := by
  simp only [BinGroup.ofWord, BinGroup.toWord]
  ext k hk
  simp only [BitVec.getElem_append, BitVec.getElem_extractLsb']
  split
  · simp [BitVec.getLsbD_eq_getElem hk]
  · split
    · simp [show 8 + (k - 8) = k by omega, BitVec.getLsbD_eq_getElem hk]
    · simp [show 16 + (k - 8 - 8) = k by omega, BitVec.getLsbD_eq_getElem hk]

/-- The control word a mode and a shape are encoded in. -/
@[simp] theorem Request.ctl_build (mode : ScanMode) (wide : Bool) (ops : ParseOperands) :
    (Request.build mode wide ops).ctl = BitVec.ofBool wide ++ mode.code := rfl

/-- The selection table read off (30_encoding R62). -/
theorem selectRow_code (mode : ScanMode) (wide : Bool) :
    selectRow (BitVec.ofBool wide ++ mode.code) =
      some (match mode, wide with
        | .disabled, _ => .dis
        | .background, false => .nBg
        | .manual, false => .nMan
        | .channelScan, false => .nCs
        | .background, true => .wBg
        | .manual, true => .wMan
        | .channelScan, true => .wCs) := by
  cases mode <;> cases wide <;> decide

theorem row_build (mode : ScanMode) (wide : Bool) (ops : ParseOperands) :
    (Transaction.parse (Request.build mode wide ops)).row =
      (selectRow (BitVec.ofBool wide ++ mode.code), 1) := by
  simp only [Transaction.row, Request.ctl_build]
  cases mode <;> cases wide <;> decide

namespace Laws.EncodesToItsRow

/-- The encoding selects the instruction's own row, and that row alone. -/
def Statement (i : Instr) : Prop :=
  (encode i).row = (i.row, if i.row.isSome then 1 else 0)

theorem parseDis (wide : Bool) (ops : ParseOperands) : Statement (.parseDis wide ops) := by
  simp only [Statement, encode, row_build, selectRow_code]; rfl
theorem parseNBg (ops : ParseOperands) : Statement (.parseNBg ops) := by
  simp only [Statement, encode, row_build, selectRow_code]; rfl
theorem parseNMan (ops : ParseOperands) : Statement (.parseNMan ops) := by
  simp only [Statement, encode, row_build, selectRow_code]; rfl
theorem parseNCs (ops : ParseOperands) : Statement (.parseNCs ops) := by
  simp only [Statement, encode, row_build, selectRow_code]; rfl
theorem parseWBg (ops : ParseOperands) : Statement (.parseWBg ops) := by
  simp only [Statement, encode, row_build, selectRow_code]; rfl
theorem parseWMan (ops : ParseOperands) : Statement (.parseWMan ops) := by
  simp only [Statement, encode, row_build, selectRow_code]; rfl
theorem parseWCs (ops : ParseOperands) : Statement (.parseWCs ops) := by
  simp only [Statement, encode, row_build, selectRow_code]; rfl
theorem maxmag (bins : BinGroup) : Statement (.maxmag bins) := rfl
theorem maxidx (bins : BinGroup) : Statement (.maxidx bins) := rfl
theorem bmw (bins : BinGroup) : Statement (.bmw bins) := rfl
theorem bindec (bins : BinGroup) : Statement (.bindec bins) := rfl

end Laws.EncodesToItsRow
end Sys2Proof
end

