-- ==== Sys2Proof/Laws/Safety.lean ====
section
/-! SUPPORT. What each well-formedness check says, as a proposition. -/

namespace Sys2Proof

theorem Params.wf_iff {p : Params} :
    p.wf = true ↔ p.nbNarrow + 7 < 2 ^ p.lenW ∧ p.nbWide + 10 < 2 ^ p.lenW := by
  simp [Params.wf]

theorem ParseOperands.wf_iff {p : Params} {ops : ParseOperands} :
    ops.wf p = true ↔
      ops.raw.wf = true ∧ ops.raw.length < 2 ^ p.lenW ∧ ops.hdr < 2 ^ p.hdrW := by
  simp [ParseOperands.wf, and_assoc]

theorem Transaction.wf_parse_iff {p : Params} {r : Request} :
    (Transaction.parse r).wf p = true ↔
      r.raw.wf = true ∧ r.raw.length < 2 ^ p.lenW ∧ r.hdr < 2 ^ p.hdrW :=
  ParseOperands.wf_iff (ops := r.operands)

namespace Machine

theorem DecodedBinGroup.wf_iff {g : DecodedBinGroup} :
    g.wf = true ↔ g.maxMagnitude.toNat ≤ 4095 ∧
      (g.maxIndex.toNat ≤ 60 ∨ 253 ≤ g.maxIndex.toNat) ∧ g.bitmapWeight.toNat ≤ 63 := by
  simp [DecodedBinGroup.wf, and_assoc]

theorem DecodedSample.wf_narrow_iff {p : Params} {d : DecodedSample} {all : DecodedBinGroup}
    (h : d.groups = .narrow all) :
    d.wf p = true ↔ d.mode ≠ .disabled ∧ d.rawBins.length = p.nbNarrow ∧ all.wf = true := by
  have hs : d.shape = false := by rw [DecodedSample.shape, h]
  simp only [DecodedSample.wf, hs, h, DecodedGroups.wf, Bool.and_eq_true, decide_eq_true_eq,
    and_assoc]
  rfl

theorem DecodedSample.wf_wide_iff {p : Params} {d : DecodedSample} {lower upper : DecodedBinGroup}
    (h : d.groups = .wide lower upper) :
    d.wf p = true ↔ d.mode ≠ .disabled ∧ d.rawBins.length = p.nbWide ∧ lower.wf = true ∧
      upper.wf = true := by
  have hs : d.shape = true := by rw [DecodedSample.shape, h]
  simp only [DecodedSample.wf, hs, h, DecodedGroups.wf, Bool.and_eq_true, decide_eq_true_eq,
    and_assoc]
  rfl

theorem Response.wf_truncated_iff {p : Params} {e a : Nat} :
    (Response.err (.truncatedPacket e a)).wf p = true ↔
      (e = p.nbNarrow + 7 ∨ e = p.nbWide + 10) ∧ e ≠ a ∧ e < 2 ^ p.lenW ∧ a < 2 ^ p.lenW := by
  simp only [Response.wf, Bool.and_eq_true, Bool.or_eq_true, decide_eq_true_eq, and_assoc]
  rfl

end Machine
end Sys2Proof
end

