-- ==== Sys2Proof/Tests/Slice0.lean ====
section
/-! SUPPORT. Tests. Expected values come from spec/95_test_vectors.md (the vector is named in each
comment) or are worked out by hand from the rule named; witnesses meet the hypotheses of the
statements. -/

open Sys2Proof Sys2Proof.Machine

namespace Sys2Proof.Tests

/-! ### Well-formedness: a good term passes, an ill-formed one is refused, for each check -/

/-- The small parameter set of 95_test_vectors 3.1. -/
def small : Params := { nbNarrow := 4, nbWide := 8, lenW := 16, hdrW := 0 }

def emptyOps : ParseOperands := { hdr := 0, ts := 0#64, raw := [] }

theorem test_wf_small_params : small.wf = true := by decide
theorem test_wf_recommended_params : Params.recommended.wf = true := by decide
theorem test_wf_refuses_narrow_length_too_wide :
    ({ small with nbNarrow := 9, lenW := 4, nbWide := 0 } : Params).wf = false := by decide
theorem test_wf_refuses_wide_length_too_wide :
    ({ small with nbWide := 6, lenW := 4 } : Params).wf = false := by decide
theorem test_wf_refuses_buffer_with_a_hole :
    Memory.wf [(0, 1#8), (2, 3#8)] = false := by decide
theorem test_wf_refuses_buffer_out_of_order :
    Memory.wf [(1, 1#8), (0, 3#8)] = false := by decide
theorem test_wf_refuses_repeated_offset :
    Memory.wf [(0, 1#8), (0, 3#8)] = false := by decide
theorem test_wf_refuses_too_long_buffer :
    (Instr.parseNBg { emptyOps with raw := Memory.ofBytes [1#8, 2#8] }).wf
      { small with lenW := 1 } = false := by decide
theorem test_wf_refuses_too_wide_header :
    (Instr.parseWCs { emptyOps with hdr := 2 }).wf { small with hdrW := 1 } = false := by decide
theorem test_wf_accepts_bare_instruction : (Instr.parseNMan emptyOps).wf small = true := by decide

/-! ### Decoding: words written out from 30_encoding R62 and R65 -/

theorem test_decode_dis_narrow : decodeTableWord 8 0b000 = some (.parseDis false emptyOps) := by decide
theorem test_decode_dis_wide : decodeTableWord 8 0b100 = some (.parseDis true emptyOps) := by decide
theorem test_decode_n_bg : decodeTableWord 8 0b001 = some (.parseNBg emptyOps) := by decide
theorem test_decode_n_man : decodeTableWord 8 0b010 = some (.parseNMan emptyOps) := by decide
theorem test_decode_n_cs : decodeTableWord 8 0b011 = some (.parseNCs emptyOps) := by decide
theorem test_decode_w_bg : decodeTableWord 8 0b101 = some (.parseWBg emptyOps) := by decide
theorem test_decode_w_man : decodeTableWord 8 0b110 = some (.parseWMan emptyOps) := by decide
theorem test_decode_w_cs : decodeTableWord 8 0b111 = some (.parseWCs emptyOps) := by decide

/-- `{byte2, byte1, byte0}` of A5 5A C3, bit by bit: index 110000, magnitude 110101101010, weight
100101 (30_encoding R65). -/
def wordA55AC3 : Word24 := 0b110000_110101101010_100101#24

def groupA55AC3 : BinGroup := { b0 := 0xA5#8, b1 := 0x5A#8, b2 := 0xC3#8 }

/-- What a decoding answers, as an option that can be compared. -/
def decoded (t : Transaction) : Option Instr :=
  match decode t with
  | .ok i => some i
  | .error _ => none

theorem test_decode_maxmag :
    decoded (.apply .maxmag wordA55AC3) = some (.maxmag groupA55AC3) := by decide
theorem test_decode_maxidx :
    decoded (.apply .maxidx wordA55AC3) = some (.maxidx groupA55AC3) := by decide
theorem test_decode_bmw : decoded (.apply .bmw wordA55AC3) = some (.bmw groupA55AC3) := by decide
theorem test_decode_bindec :
    decodeTableWord 24 0b110000110101101010100101 = some (.bindec groupA55AC3) := by decide
theorem test_encode_n_man :
    tableWord (encode (.parseNMan emptyOps)) = (8, 0b010) := by decide
theorem test_encode_maxidx :
    tableWord (encode (.maxidx groupA55AC3)) = (24, 0b110000110101101010100101) := by decide

/-- The error a word is rejected with. -/
def rejection (nbits w : Nat) : Option DecodeError :=
  match decodeWord nbits w with
  | .ok _ => none
  | .error e => some e

theorem test_reject_byte_above_three_bits : rejection 8 0x11 = some (.notAControlWord 0x11) := by decide
theorem test_reject_above_twenty_four_bits :
    rejection 24 16777216 = some (.notABinGroup 16777216) := by decide
/-- Log 17: 3 to 8 bits are a control word, fewer and more are not. -/
theorem test_control_word_widths :
    decodeTableWord 3 0b001 = some (.parseNBg emptyOps) ∧
    decodeTableWord 5 0b001 = some (.parseNBg emptyOps) ∧
    rejection 5 0b01001 = some (.notAControlWord 9) ∧
    rejection 2 0b01 = some (.noFormat 2) ∧ rejection 9 0b001 = some (.noFormat 9) := by decide
theorem test_reject_unknown_format : rejection 16 1 = some (.noFormat 16) := by decide

/-! ### The Bin Decoder: vectors of 95_test_vectors 2 -/

/-- What executing one instruction on a reset core delivers. -/
def delivers (p : Params) (i : Instr) : Option (List Output) :=
  (nextOf (exec i (State.resetWith p))).map (·.delivered)

/-- B7: lost if the shift is done in 8 bits. -/
theorem test_maxmag_b7 :
    delivers small (.maxmag ⟨0x00, 0x80, 0x00⟩) = some [.bin (.magnitude 512)] := by decide
/-- B24. -/
theorem test_maxmag_b24 :
    delivers small (.maxmag ⟨0xDE, 0xAD, 0xBE⟩) = some [.bin (.magnitude 2743)] := by decide
/-- S1: byte2 = 0x00 gives field 0 and index 29. -/
theorem test_maxidx_s1 : delivers small (.maxidx ⟨0, 0, 0x00⟩) = some [.bin (.index 29)] := by decide
/-- B19: the sum wraps to 0. (Fields 32 and 33 are in P10a and P12 below.) -/
theorem test_maxidx_b19 : delivers small (.maxidx ⟨0, 0, 0x8C⟩) = some [.bin (.index 0)] := by decide
/-- B22. -/
theorem test_bmw_b22 : delivers small (.bmw ⟨0xA5, 0x5A, 0xC3⟩) = some [.bin (.weight 37)] := by decide
/-- B5: the magnitude bits of byte0 do not disturb the weight. -/
theorem test_bmw_b5 : delivers small (.bmw ⟨0xC0, 0, 0⟩) = some [.bin (.weight 0)] := by decide
/-- B23. -/
theorem test_bindec_b23 :
    delivers small (.bindec ⟨0x12, 0x34, 0x56⟩) = some [.bin (.group ⟨2256, 50, 18⟩)] := by decide
/-- B21. -/
theorem test_bindec_b21 :
    delivers small (.bindec ⟨0x00, 0x00, 0xFF⟩) = some [.bin (.group ⟨3072, 28, 0⟩)] := by decide

/-! ### PARSE: vectors of 95_test_vectors 3, each one step on a core just reset -/

/-- A request with these bits and bytes. -/
def request (mode : BitVec 2) (wide : Bool) (ts : Timestamp) (raw : List Byte) : Request :=
  { mode := mode, wide := wide, hdr := 0, ts := ts, raw := Memory.ofBytes raw }

/-- What one step delivers when a freshly reset core is presented a request. -/
def answers (p : Params) (r : Request) : Option (List Output) :=
  (nextOf (step ((State.resetWith p).present r))).map (·.delivered)

def rawP1 : List Byte := [0x10, 0x20, 0x30, 0x40, 0xA5, 0x5A, 0xC3, 0x07, 0x11, 0x22, 0x33]

def rawP9 : List Byte :=
  [1, 2, 3, 4, 5, 6, 7, 8, 0xA5, 0x5A, 0xC3, 0x12, 0x34, 0x56, 9, 0xAA, 0xBB, 0xCC]

/-- P1. -/
theorem test_parse_n_bg_p1 :
    answers small (request 0b01 false 0x1122334455667788 rawP1) = some [.response (.ok {
      mode := .background, timestamp := 0x1122334455667788, rawBins := [0x10, 0x20, 0x30, 0x40],
      groups := .narrow ⟨3434, 13, 37⟩, maxExponent := 0x07, radar := ⟨0x11, 0x22, 0x33⟩ })] := by
  decide
/-- P2: mode check first. -/
theorem test_parse_dis_p2 :
    answers small (request 0b00 false 0x1122334455667788 rawP1) =
      some [.response (.err .invalidMode)] := by decide
/-- P7: Disabled, wide, empty. -/
theorem test_parse_dis_p7 :
    answers small (request 0b00 true 0 []) = some [.response (.err .invalidMode)] := by decide
/-- P3: one byte short. -/
theorem test_parse_n_man_p3 :
    answers small (request 0b10 false 5 (rawP1.take 10)) =
      some [.response (.err (.truncatedPacket 11 10))] := by decide
/-- P4: one byte long. -/
theorem test_parse_n_man_p4 :
    answers small (request 0b10 false 5 (rawP1 ++ [0])) =
      some [.response (.err (.truncatedPacket 11 12))] := by decide
/-- P5: empty buffer, active mode. -/
theorem test_parse_n_cs_p5 :
    answers small (request 0b11 false 5 []) =
      some [.response (.err (.truncatedPacket 11 0))] := by decide
/-- P10a: index 253 inside an Ok response. -/
theorem test_parse_n_cs_p10a :
    answers small (request 0b11 false 0 [0, 0, 0, 0, 0, 0, 0x80, 0xFF, 0, 0, 0]) =
      some [.response (.ok {
        mode := .channelScan, timestamp := 0, rawBins := [0, 0, 0, 0],
        groups := .narrow ⟨0, 253, 0⟩, maxExponent := 0xFF, radar := ⟨0, 0, 0⟩ })] := by decide
/-- P9. -/
theorem test_parse_w_man_p9 :
    answers small (request 0b10 true 0xFFFFFFFFFFFFFFFF rawP9) = some [.response (.ok {
      mode := .manual, timestamp := 0xFFFFFFFFFFFFFFFF, rawBins := [1, 2, 3, 4, 5, 6, 7, 8],
      groups := .wide ⟨3434, 13, 37⟩ ⟨2256, 50, 18⟩, maxExponent := 0x09,
      radar := ⟨0xAA, 0xBB, 0xCC⟩ })] := by decide
/-- P6: narrow-length buffer presented as wide. -/
theorem test_parse_w_cs_p6 :
    answers small (request 0b11 true 5 rawP1) =
      some [.response (.err (.truncatedPacket 18 11))] := by decide
/-- Program 3, request 1: a full-size narrow packet (bins 2i). -/
theorem test_parse_n_bg_program3 :
    answers Params.recommended (request 0b01 false 0x0123456789ABCDEF
      ((List.range 56).map (fun i => BitVec.ofNat 8 (2 * i)) ++
        [0xA5, 0x5A, 0xC3, 0x04, 0x0A, 0x0B, 0x0C])) = some [.response (.ok {
      mode := .background, timestamp := 0x0123456789ABCDEF,
      rawBins := (List.range 56).map (fun i => BitVec.ofNat 8 (2 * i)),
      groups := .narrow ⟨3434, 13, 37⟩, maxExponent := 0x04, radar := ⟨0x0A, 0x0B, 0x0C⟩ })] := by
  decide +kernel
/-- P12: a full-size wide packet (bins 3i + 1 modulo 256). -/
theorem test_parse_w_cs_p12 :
    answers Params.recommended (request 0b11 true 1
      ((List.range 128).map (fun i => BitVec.ofNat 8 (3 * i + 1)) ++
        [0x7F, 0x80, 0x01, 0x00, 0x00, 0x84, 0x0A, 0xF0, 0x0F, 0x55])) = some [.response (.ok {
      mode := .channelScan, timestamp := 1,
      rawBins := (List.range 128).map (fun i => BitVec.ofNat 8 (3 * i + 1)),
      groups := .wide ⟨1537, 29, 63⟩ ⟨0, 254, 0⟩, maxExponent := 0x0A,
      radar := ⟨0xF0, 0x0F, 0x55⟩ })] := by decide +kernel
/-- P13: 63 bytes presented as wide. -/
theorem test_parse_w_bg_p13 :
    answers Params.recommended (request 0b01 true 0 (List.replicate 63 0)) =
      some [.response (.err (.truncatedPacket 138 63))] := by decide
/-- A buffer with a hole at a read offset is a fault, by name (log 10). -/
theorem test_parse_hole_faults :
    (match exec (.parseWBg { emptyOps with raw := (99, 1#8) :: (Memory.ofBytes rawP9).take 17 })
        (State.resetWith small) with
      | .fault f => some f
      | _ => none) = some (.readOutsideBuffer 17) := by decide
/-- The loader: the first step after reset runs the presented word. -/
theorem test_with_fetch_word :
    (nextOf (step (State.reset.withFetchWord 8 0b101))).map (·.delivered) =
      some [.response (.err (.truncatedPacket 138 0))] := by decide
/-- An idle core stays as it is. -/
theorem test_idle : nextOf (step State.reset) = some State.reset := by decide

/-! ### Witnesses: a concrete case that meets the hypotheses of each statement that has some -/

def packetN : Request := request 0b01 false 7 rawP1
def packetW : Request := request 0b10 true 7 rawP9

def sampleN : DecodedSample :=
  { mode := .background, timestamp := 7, rawBins := [0x10, 0x20, 0x30, 0x40],
    groups := .narrow ⟨3434, 13, 37⟩, maxExponent := 0x07, radar := ⟨0x11, 0x22, 0x33⟩ }
def sampleW : DecodedSample :=
  { mode := .manual, timestamp := 7, rawBins := [1, 2, 3, 4, 5, 6, 7, 8],
    groups := .wide ⟨3434, 13, 37⟩ ⟨2256, 50, 18⟩, maxExponent := 0x09,
    radar := ⟨0xAA, 0xBB, 0xCC⟩ }

/-- A core with a narrow packet, a wide packet and a Bin Decoder application ahead. -/
def loaded : State :=
  { params := small, pending := [.parse packetN, .parse packetW, .apply .bindec wordA55AC3],
    delivered := [] }
/-- The same after its first step. -/
def loaded1 : State :=
  { params := small, pending := [.parse packetW, .apply .bindec wordA55AC3],
    delivered := [.response (.ok sampleN)] }
/-- Another history, the same transaction first. -/
def otherHistory : State :=
  { params := small, pending := [.parse packetN],
    delivered := [.response (.err .invalidMode), .bin (.weight 63)] }
/-- Requests only. -/
def hostLoaded : State :=
  { params := small, pending := [.parse packetN, .parse packetW], delivered := [] }

theorem parse_packetN : parseRequest small packetN = .ok (.ok sampleN) := rfl
theorem parse_packetW : parseRequest small packetW = .ok (.ok sampleW) := rfl
theorem step_loaded : step loaded = .next loaded1 := rfl

/-- DisabledAlwaysAnswersInvalidMode, second clause. -/
theorem witness_disabled :
    ScanMode.ofCode (request 0b00 true 0 []).mode = .disabled ∧
    ((State.resetWith small).present (request 0b00 true 0 [])).pending =
      [.parse (request 0b00 true 0 [])] := ⟨rfl, rfl⟩
/-- LengthMismatchAnswersTruncatedPacket: one short, exact, one long, for either shape. -/
theorem witness_lengths :
    (Memory.ofBytes (rawP1.take 10)).length ≠ small.nbNarrow + 7 ∧
    (Memory.ofBytes rawP1).length = small.nbNarrow + 7 ∧
    (Memory.ofBytes (rawP1 ++ [0])).length ≠ small.nbNarrow + 7 ∧
    (Memory.ofBytes (rawP9.take 17)).length ≠ small.nbWide + 10 ∧
    (Memory.ofBytes rawP9).length = small.nbWide + 10 ∧
    (Memory.ofBytes (rawP9 ++ [0])).length ≠ small.nbWide + 10 := by decide
/-- NarrowPacketIsDecoded. -/
theorem witness_narrow : (rawP1.take 4).length = (State.resetWith small).params.nbNarrow := rfl
/-- WidePacketIsDecoded. -/
theorem witness_wide : (rawP9.take 8).length = (State.resetWith small).params.nbWide := rfl
/-- StepOnRequestIsParse. -/
theorem witness_step_on_request :
    loaded.pending = .parse packetN :: [.parse packetW, .apply .bindec wordA55AC3] := rfl
/-- SuccessIffActiveModeAndExactLength: the hypothesis, and both sides of the equivalence true. -/
theorem witness_success :
    packetN.raw.wf = true ∧ (∃ d, parseRequest small packetN = .ok (.ok d)) ∧
    ScanMode.ofCode packetN.mode ≠ .disabled ∧ packetN.raw.length = small.nbNarrow + 7 :=
  ⟨by decide, ⟨_, parse_packetN⟩, by decide, by decide⟩
/-- ShapeBitIsTrusted: shapes of different lengths, and shapes of one length (5 + 7 = 2 + 10). -/
theorem witness_shape_bit :
    (packetN.raw.wf = true ∧ ScanMode.ofCode packetN.mode ≠ .disabled ∧
      packetN.raw.length = small.nbNarrow + 7 ∧ small.nbNarrow + 7 ≠ small.nbWide + 10) ∧
    ((request 0b01 true 0 (rawP1 ++ [0])).raw.wf = true ∧
      (request 0b01 true 0 (rawP1 ++ [0])).raw.length = 2 + 10 ∧ 5 + 7 = 2 + 10) := by decide
/-- SampleHoldsTheRequestsFields, a packet of either shape. -/
theorem witness_sample_holds :
    (packetN.raw.wf = true ∧ parseRequest small packetN = .ok (.ok sampleN)) ∧
    (packetW.raw.wf = true ∧ parseRequest small packetW = .ok (.ok sampleW)) :=
  ⟨⟨by decide, parse_packetN⟩, ⟨by decide, parse_packetW⟩⟩
/-- SampleDeterminesRequest: two requests with different headers and one sample. -/
theorem witness_sample_determines :
    packetW.raw.wf = true ∧ ({ packetW with hdr := 5 } : Request).raw.wf = true ∧
    parseRequest small packetW = .ok (.ok sampleW) ∧
    parseRequest small { packetW with hdr := 5 } = .ok (.ok sampleW) :=
  ⟨by decide, by decide, parse_packetW, rfl⟩
/-- ShapeIndependence, with the lower group equal to the all-bins group. -/
theorem witness_shape_lower :
    packetN.wide = false ∧ packetW.wide = true ∧
    parseRequest small packetN = .ok (.ok sampleN) ∧
    parseRequest small packetW = .ok (.ok sampleW) ∧
    ∀ k < 3, packetN.raw.read (small.nbNarrow + k) = packetW.raw.read (small.nbWide + k) :=
  ⟨rfl, rfl, parse_packetN, parse_packetW, by decide⟩
/-- A narrow packet whose group is the upper group of `packetW`. -/
def packetN2 : Request := request 0b11 false 0 [1, 2, 3, 4, 0x12, 0x34, 0x56, 0, 0, 0, 0]
/-- ShapeIndependence, with the upper group equal to the all-bins group. -/
theorem witness_shape_upper :
    packetN2.wide = false ∧ (∃ d, parseRequest small packetN2 = .ok (.ok d)) ∧
    ∀ k < 3, packetN2.raw.read (small.nbNarrow + k) = packetW.raw.read (small.nbWide + 3 + k) :=
  ⟨rfl, ⟨_, rfl⟩, by decide⟩
/-- BindecIsInjective, second clause. -/
theorem witness_bindec : decodeGroup groupA55AC3 = decodeGroup (BinGroup.ofWord wordA55AC3) := by
  decide
/-- ExecChangesOnlyTheDeliveredOutput. -/
theorem witness_exec_next :
    exec (.parseNBg packetN.operands) { loaded with pending := loaded.pending.tail } =
      .next loaded1 := rfl
/-- StepRunsTheDecodedInstruction. -/
theorem witness_step_runs :
    loaded.pending = .parse packetN :: loaded1.pending ∧
    decode (.parse packetN) = .ok (.parseNBg packetN.operands) := ⟨rfl, rfl⟩
/-- IdleStepChangesNothing. -/
theorem witness_idle : otherHistory.assertReset.pending = [] := rfl
/-- StepAnswersExactlyOneTransaction. -/
theorem witness_step_answers :
    loaded.pending = .parse packetN :: loaded1.pending ∧ step loaded = .next loaded1 :=
  ⟨rfl, step_loaded⟩
/-- StepAnswersExactlyOneTransaction, a transaction that is no request (log 4): its output is no
response. -/
theorem witness_step_answers_application :
    ({ loaded1 with pending := [.apply .bindec wordA55AC3] } : State).pending =
      .apply .bindec wordA55AC3 :: [] ∧
    (Transaction.apply .bindec wordA55AC3).isRequest = false ∧
    step { loaded1 with pending := [.apply .bindec wordA55AC3] } =
      .next { loaded1 with pending := [],
                           delivered := loaded1.delivered ++ [.bin (.group ⟨3434, 13, 37⟩)] } :=
  ⟨rfl, rfl, rfl⟩
/-- StepKeepsTheInvariant. -/
theorem witness_invariant : loaded.Inv ∧ step loaded = .next loaded1 := ⟨by decide, step_loaded⟩
/-- ResetMeetsTheInvariant, second clause, at the narrowest legal length width. -/
theorem witness_reset_params :
    small.wf = true ∧ ({ small with nbWide := 5, lenW := 4 } : Params).wf = true := by decide
/-- Requests that are answered by samples and by both errors. -/
def fourRequests : State :=
  { hostLoaded with pending :=
      [.parse packetN, .parse packetW, .parse (request 0b00 true 0 []), .parse (request 0b11 true 0 rawP1)] }
/-- CanonicalBuffersNeverStop. -/
theorem witness_canonical :
    ∀ r, Transaction.parse r ∈ fourRequests.pending → r.raw.wf = true := by
  intro r h
  simp only [fourRequests, List.mem_cons, Transaction.parse.injEq, List.not_mem_nil, or_false] at h
  rcases h with rfl | rfl | rfl | rfl <;> decide
/-- RunAnswersEachRequestInOrder. -/
theorem witness_run : ∀ r ∈ [packetN, request 0b00 true 0 [], packetW], r.raw.wf = true := by decide
/-- OutputDependsOnTheTransactionAlone. -/
theorem witness_history :
    loaded.params = otherHistory.params ∧ loaded.pending = .parse packetN :: loaded1.pending ∧
    otherHistory.pending = .parse packetN :: [] ∧ step loaded = .next loaded1 :=
  ⟨rfl, rfl, rfl, step_loaded⟩
/-- HostRunsDeliverResponsesOnly. -/
theorem witness_host_only :
    hostLoaded.HostOnly ∧
    step hostLoaded = .next { hostLoaded with
      pending := [.parse packetW], delivered := [.response (.ok sampleN)] } := ⟨by decide, rfl⟩
/-- PresentedWordRunsNext. -/
theorem witness_presented_word : decodeTableWord 8 0b110 = some (.parseWMan emptyOps) := by decide

end Sys2Proof.Tests
end

section
/-! The Bin Decoder: each result is in the range of 40_bin_decoder R97. -/

namespace Sys2Proof.Machine

/-- Three fragments below 2^12, so their OR is too. -/
theorem maxMagnitude_le (b : BinGroup) : (maxMagnitude b).toNat ≤ 4095 := by
  have hlo : (b.b0.setWidth 16 >>> 6).toNat < 2 ^ 12 := by bv_omega
  have hmid : (b.b1.setWidth 16 <<< 2).toNat < 2 ^ 12 := by bv_omega
  have hhi : ((b.b2.setWidth 16 &&& 0x0003#16) <<< 10).toNat < 2 ^ 12 := by
    have hand : (b.b2.setWidth 16 &&& 0x0003#16).toNat ≤ 3 := by
      rw [BitVec.toNat_and]
      exact Nat.and_le_right
    bv_omega
  have hor := Nat.or_lt_two_pow (Nat.or_lt_two_pow hlo hmid) hhi
  simp only [maxMagnitude, BitVec.toNat_or]
  omega

/-- A field below 32 gives 29 to 60; a negative one has its top three bits set, is 224 or more, and
the sum is 253 to 255 or wraps to 0 to 28. -/
theorem maxIndex_range (b : BinGroup) :
    (maxIndex b).toNat ≤ 60 ∨ 253 ≤ (maxIndex b).toNat := by
  unfold maxIndex
  by_cases hneg : Config.idxNegMin ≤ indexField b
  · have hor : 224 ≤ (indexField b ||| 0xE0#8).toNat := by
      rw [BitVec.toNat_or]
      exact Nat.right_le_or
    simp only [hneg, if_true]
    bv_omega
  · simp only [hneg, if_false]
    bv_omega

theorem bitmapWeight_le (b : BinGroup) : (bitmapWeight b).toNat ≤ 63 := by
  rw [bitmapWeight, BitVec.toNat_and]
  exact Nat.and_le_right

@[simp] theorem decodeGroup_wf (b : BinGroup) : (decodeGroup b).wf = true :=
  DecodedBinGroup.wf_iff.mpr ⟨maxMagnitude_le b, maxIndex_range b, bitmapWeight_le b⟩

end Sys2Proof.Machine
end

section
/-! `PARSE`: what its bodies and its responses are, and that it reads no header. -/

namespace Sys2Proof.Machine

theorem narrowBody_wf {p : Params} {mode : ScanMode} {ops : ParseOperands} {d : DecodedSample}
    (hmode : mode ≠ .disabled) (h : narrowBody p.nbNarrow mode ops = .ok d) : d.wf p = true := by
  obtain ⟨bins, grp, mexp, radar, hbins, -, -, -, rfl⟩ := narrowBody_eq_ok.mp h
  obtain ⟨hlen, -⟩ := Memory.slice_eq_ok.mp hbins
  exact (DecodedSample.wf_narrow_iff rfl).mpr ⟨hmode, hlen, decodeGroup_wf grp⟩

theorem wideBody_wf {p : Params} {mode : ScanMode} {ops : ParseOperands} {d : DecodedSample}
    (hmode : mode ≠ .disabled) (h : wideBody p.nbWide mode ops = .ok d) : d.wf p = true := by
  obtain ⟨bins, lower, upper, mexp, radar, hbins, -, -, -, -, rfl⟩ := wideBody_eq_ok.mp h
  obtain ⟨hlen, -⟩ := Memory.slice_eq_ok.mp hbins
  exact (DecodedSample.wf_wide_iff rfl).mpr
    ⟨hmode, hlen, decodeGroup_wf lower, decodeGroup_wf upper⟩

theorem expectedLength_lt {p : Params} (hp : p.wf = true) (wide : Bool) :
    expectedLength p wide < 2 ^ p.lenW := by
  obtain ⟨hnarrow, hwide⟩ := Params.wf_iff.mp hp
  cases wide
  · exact hnarrow
  · exact hwide

/-- The length error names the two different lengths (60_exceptions R142); both fit in `LEN_W` bits
because the parameters are legal and the buffer can be presented. -/
theorem truncatedPacket_wf {p : Params} {wide : Bool} {ops : ParseOperands} (hp : p.wf = true)
    (hops : ops.wf p = true) (hlen : ops.raw.length ≠ expectedLength p wide) :
    (Response.err (.truncatedPacket (expectedLength p wide) ops.raw.length)).wf p = true := by
  obtain ⟨-, hraw, -⟩ := ParseOperands.wf_iff.mp hops
  refine Response.wf_truncated_iff.mpr ⟨?_, hlen.symm, expectedLength_lt hp wide, hraw⟩
  cases wide
  · exact .inl rfl
  · exact .inr rfl

/-- Whatever `PARSE` answers to operands that can be presented is in the spec's ranges. -/
theorem parse_wf {p : Params} {mode : ScanMode} {wide : Bool} {ops : ParseOperands}
    {rsp : Response} (hp : p.wf = true) (hops : ops.wf p = true)
    (h : parse p mode wide ops = .ok rsp) : rsp.wf p = true := by
  rcases parse_eq_ok.mp h with ⟨-, rfl⟩ | ⟨-, hlen, rfl⟩ | ⟨hmode, -, -, d, hd, rfl⟩ |
    ⟨hmode, -, -, d, hd, rfl⟩
  · rfl
  · exact truncatedPacket_wf hp hops hlen
  · exact wideBody_wf hmode hd
  · exact narrowBody_wf hmode hd

theorem narrowBody_setHdr (nb : Nat) (mode : ScanMode) (ops : ParseOperands) (hdr : Nat) :
    narrowBody nb mode { ops with hdr := hdr } = narrowBody nb mode ops := rfl

theorem wideBody_setHdr (nb : Nat) (mode : ScanMode) (ops : ParseOperands) (hdr : Nat) :
    wideBody nb mode { ops with hdr := hdr } = wideBody nb mode ops := rfl

theorem parse_setHdr (p : Params) (mode : ScanMode) (wide : Bool) (ops : ParseOperands)
    (hdr : Nat) : parse p mode wide { ops with hdr := hdr } = parse p mode wide ops := by
  simp only [parse, narrowBody_setHdr, wideBody_setHdr]

end Sys2Proof.Machine
end

section
/-! What an instruction delivers, as a function of the parameters and the instruction alone; executing
it is delivering that (`exec_eq_next`). -/

namespace Sys2Proof.Machine

/-- The output of an instruction: for a `PARSE` row the response, for a Bin Decoder row its result. -/
def instrOutput (p : Params) : Instr → Except Fault Output
  | .parseDis wide ops => .response <$> parse p .disabled wide ops
  | .parseNBg ops => .response <$> parse p .background false ops
  | .parseNMan ops => .response <$> parse p .manual false ops
  | .parseNCs ops => .response <$> parse p .channelScan false ops
  | .parseWBg ops => .response <$> parse p .background true ops
  | .parseWMan ops => .response <$> parse p .manual true ops
  | .parseWCs ops => .response <$> parse p .channelScan true ops
  | .maxmag b => .ok (.bin (.magnitude (maxMagnitude b)))
  | .maxidx b => .ok (.bin (.index (maxIndex b)))
  | .bmw b => .ok (.bin (.weight (bitmapWeight b)))
  | .bindec b => .ok (.bin (.group (decodeGroup b)))

theorem response_map_eq_ok {r : Except Fault Response} {o : Output} :
    Output.response <$> r = .ok o ↔ ∃ rsp, r = .ok rsp ∧ o = .response rsp := by
  cases r <;> simp [eq_comm]

theorem answer_eq_next_iff_output {r : Except Fault Response} {s t : State} :
    answer r s = .next t ↔ ∃ o, Output.response <$> r = .ok o ∧ t = s.deliver o := by
  rw [answer_eq_next]
  constructor
  · rintro ⟨rsp, hr, rfl⟩
    exact ⟨_, response_map_eq_ok.mpr ⟨rsp, hr, rfl⟩, rfl⟩
  · rintro ⟨o, ho, rfl⟩
    obtain ⟨rsp, hr, rfl⟩ := response_map_eq_ok.mp ho
    exact ⟨rsp, hr, rfl⟩

theorem next_deliver_iff_output {o : Output} {s t : State} :
    (.next (s.deliver o) : Host.Outcome State Fault Refusal) = .next t ↔
      ∃ o', (.ok o : Except Fault Output) = .ok o' ∧ t = s.deliver o' := by
  simp [eq_comm]

/-- Everything executing an instruction can do: deliver its output, and nothing else. -/
theorem exec_eq_next {i : Instr} {s t : State} :
    exec i s = .next t ↔ ∃ o, instrOutput s.params i = .ok o ∧ t = s.deliver o := by
  cases i with
  | parseDis wide ops =>
    exact answer_eq_next_iff_output (r := parse s.params .disabled wide ops)
  | parseNBg ops => exact answer_eq_next_iff_output
  | parseNMan ops => exact answer_eq_next_iff_output
  | parseNCs ops => exact answer_eq_next_iff_output
  | parseWBg ops => exact answer_eq_next_iff_output
  | parseWMan ops => exact answer_eq_next_iff_output
  | parseWCs ops => exact answer_eq_next_iff_output
  | maxmag b => exact next_deliver_iff_output
  | maxidx b => exact next_deliver_iff_output
  | bmw b => exact next_deliver_iff_output
  | bindec b => exact next_deliver_iff_output

theorem response_map_wf {p : Params} {mode : ScanMode} {wide : Bool} {ops : ParseOperands}
    {o : Output} (hp : p.wf = true) (hops : ops.wf p = true)
    (h : Output.response <$> parse p mode wide ops = .ok o) : o.wf p = true := by
  obtain ⟨rsp, hrsp, rfl⟩ := response_map_eq_ok.mp h
  exact parse_wf hp hops hrsp

/-- A well-formed instruction delivers an output in the spec's ranges. -/
theorem instrOutput_wf {p : Params} {i : Instr} {o : Output} (hp : p.wf = true)
    (hi : i.wf p = true) (h : instrOutput p i = .ok o) : o.wf p = true := by
  cases i with
  | parseDis wide ops => exact response_map_wf hp hi h
  | parseNBg ops => exact response_map_wf hp hi h
  | parseNMan ops => exact response_map_wf hp hi h
  | parseNCs ops => exact response_map_wf hp hi h
  | parseWBg ops => exact response_map_wf hp hi h
  | parseWMan ops => exact response_map_wf hp hi h
  | parseWCs ops => exact response_map_wf hp hi h
  | maxmag b =>
    cases h
    simpa [Output.wf, BinResult.wf] using maxMagnitude_le b
  | maxidx b =>
    cases h
    simpa [Output.wf, BinResult.wf] using maxIndex_range b
  | bmw b =>
    cases h
    simpa [Output.wf, BinResult.wf] using bitmapWeight_le b
  | bindec b =>
    cases h
    exact decodeGroup_wf b

theorem isResponse_of_response_map {r : Except Fault Response} {o : Output}
    (h : Output.response <$> r = .ok o) : o.isResponse = true := by
  obtain ⟨rsp, -, rfl⟩ := response_map_eq_ok.mp h
  rfl

/-- The output is a response exactly for the instructions that a control word selects. -/
theorem instrOutput_isResponse {p : Params} {i : Instr} {o : Output}
    (h : instrOutput p i = .ok o) : o.isResponse = i.row.isSome := by
  cases i with
  | parseDis wide ops => exact isResponse_of_response_map h
  | parseNBg ops => exact isResponse_of_response_map h
  | parseNMan ops => exact isResponse_of_response_map h
  | parseNCs ops => exact isResponse_of_response_map h
  | parseWBg ops => exact isResponse_of_response_map h
  | parseWMan ops => exact isResponse_of_response_map h
  | parseWCs ops => exact isResponse_of_response_map h
  | maxmag b => cases h; rfl
  | maxidx b => cases h; rfl
  | bmw b => cases h; rfl
  | bindec b => cases h; rfl

end Sys2Proof.Machine
end

section
/-! The decoder: what a transaction decodes to, and that it keeps well-formedness and kind. -/

namespace Sys2Proof

/-- A request decodes to the instruction of the row its control word selects. -/
theorem decode_parse_eq_ok {r : Request} {i : Instr} :
    decode (.parse r) = .ok i ↔
      ∃ sel, selectRow r.ctl = some sel ∧ i = sel.instr r.wide r.operands := by
  cases h : selectRow r.ctl <;> simp [decode, h, eq_comm]

theorem decode_apply_eq_ok {fn : BinFn} {w : Word24} {i : Instr} :
    decode (.apply fn w) = .ok i ↔ i = fn.instr (BinGroup.ofWord w) := by
  simp [decode, eq_comm]

/-- The selected row carries the operands of its request, unchanged. -/
@[simp] theorem CtlSel.wf_instr (p : Params) (wide : Bool) (ops : ParseOperands) (sel : CtlSel) :
    (sel.instr wide ops).wf p = ops.wf p := by
  cases sel <;> rfl

@[simp] theorem BinFn.wf_instr (p : Params) (b : BinGroup) (fn : BinFn) :
    (fn.instr b).wf p = true := by
  cases fn <;> rfl

@[simp] theorem CtlSel.row_instr (wide : Bool) (ops : ParseOperands) (sel : CtlSel) :
    (sel.instr wide ops).row = some sel := by
  cases sel <;> rfl

@[simp] theorem BinFn.row_instr (b : BinGroup) (fn : BinFn) : (fn.instr b).row = none := by
  cases fn <;> rfl

theorem decode_wf {p : Params} {t : Transaction} {i : Instr} (ht : t.wf p = true)
    (h : decode t = .ok i) : i.wf p = true := by
  cases t with
  | parse r =>
    obtain ⟨sel, -, rfl⟩ := decode_parse_eq_ok.mp h
    rw [CtlSel.wf_instr]
    exact ht
  | apply fn w =>
    obtain rfl := decode_apply_eq_ok.mp h
    exact BinFn.wf_instr p _ fn

theorem decode_row_isSome {t : Transaction} {i : Instr} (h : decode t = .ok i) :
    i.row.isSome = t.isRequest := by
  cases t with
  | parse r =>
    obtain ⟨sel, -, rfl⟩ := decode_parse_eq_ok.mp h
    rw [CtlSel.row_instr]
    rfl
  | apply fn w =>
    obtain rfl := decode_apply_eq_ok.mp h
    rw [BinFn.row_instr]
    rfl

/-- An instruction read from bare bits is decoded from the transaction they stand for. -/
theorem decodeTableWord_eq_some {nbits w : Nat} {i : Instr} :
    decodeTableWord nbits w = some i ↔
      ∃ t, wordTransaction nbits w = .ok t ∧ decode t = .ok i := by
  cases hw : wordTransaction nbits w with
  | error e => simp [decodeTableWord, decodeWord, hw]
  | ok t => cases hd : decode t <;> simp [decodeTableWord, decodeWord, hw, hd]

end Sys2Proof
end

section
/-! One step, idle or with a transaction to take. -/

namespace Sys2Proof.Machine

theorem step_of_pending_nil {s : State} (h : s.pending = []) : step s = .next s :=
  step_eq_next.mpr (.inl ⟨h, rfl⟩)

theorem step_of_decode {s : State} {t : Transaction} {rest : List Transaction} {i : Instr}
    (hp : s.pending = t :: rest) (hd : decode t = .ok i) :
    step s = exec i { s with pending := rest } := by
  have hf : s.fetch = some (t, { s with pending := rest }) :=
    State.fetch_eq_some.mpr ⟨rest, hp, rfl⟩
  simp only [step, hf, hd]

/-- Everything a step that takes a transaction can do: decode it and deliver its instruction's
output, which depends on the parameters and the transaction alone. -/
theorem step_eq_next_of_pending {s s' : State} {t : Transaction} {rest : List Transaction}
    (hp : s.pending = t :: rest) :
    step s = .next s' ↔ ∃ i o, decode t = .ok i ∧ instrOutput s.params i = .ok o ∧
      s' = { s with pending := rest, delivered := s.delivered ++ [o] } := by
  constructor
  · intro h
    rcases step_eq_next.mp h with ⟨hnil, -⟩ | ⟨u, us, i, hu, hd, hexec⟩
    · simp [hp] at hnil
    · obtain ⟨rfl, rfl⟩ := List.cons.inj (hp.symm.trans hu)
      obtain ⟨o, ho, rfl⟩ := exec_eq_next.mp hexec
      exact ⟨i, o, hd, ho, rfl⟩
  · rintro ⟨i, o, hd, ho, rfl⟩
    rw [step_of_decode hp hd]
    exact exec_eq_next.mpr ⟨o, ho, rfl⟩

/-- A byte of a pending buffer depends on the pending transactions alone. -/
theorem State.readByte_congr {s t : State} (h : t.pending = s.pending) (k offset : Nat) :
    t.readByte k offset = s.readByte k offset := by
  simp only [State.readByte, h]

theorem State.withFetchWord_eq {s : State} {nbits w : Nat} {t : Transaction}
    (h : wordTransaction nbits w = .ok t) :
    s.withFetchWord nbits w = { s with pending := t :: s.pending } := by
  simp only [State.withFetchWord, h]

theorem State.resetWith_inv {p : Params} (hp : p.wf = true) : (State.resetWith p).Inv := by
  simp [State.Inv, hp]

/-- Taking a well-formed transaction away and delivering a well-formed output keeps the invariant. -/
theorem State.Inv.take_deliver {s : State} {t : Transaction} {rest : List Transaction} {o : Output}
    (hs : s.Inv) (hp : s.pending = t :: rest) (ho : o.wf s.params = true) :
    State.Inv { s with pending := rest, delivered := s.delivered ++ [o] } := by
  obtain ⟨hparams, hpending, hdelivered⟩ := hs
  refine ⟨hparams, fun u hu => hpending u ?_, fun q hq => ?_⟩
  · rw [hp]
    exact List.mem_cons_of_mem t hu
  · rcases List.mem_append.mp hq with hold | hnew
    · exact hdelivered q hold
    · rw [List.mem_singleton.mp hnew]
      exact ho

end Sys2Proof.Machine
end

section
/-! The statements of 10_state.md, settled. -/

namespace Sys2Proof.Machine

/-- Settles O29: the idle step keeps everything; any other takes one well-formed transaction away and
delivers one output, which `instrOutput_wf` puts in range. -/
theorem stepKeepsTheInvariant : Obligations.StepKeepsTheInvariant := by
  intro s t hs hstep
  cases hp : s.pending with
  | nil =>
    rw [step_of_pending_nil hp] at hstep
    cases hstep
    exact hs
  | cons u rest =>
    obtain ⟨i, o, hd, ho, rfl⟩ := (step_eq_next_of_pending hp).mp hstep
    have ⟨hparams, hpending, _⟩ := hs
    have hu : u.wf s.params = true := hpending u (by simp [hp])
    exact hs.take_deliver hp (instrOutput_wf hparams (decode_wf hu hd) ho)

/-- Settles O25: executing is delivering one output (`exec_eq_next`). -/
theorem execChangesOnlyTheDeliveredOutput : Obligations.ExecChangesOnlyTheDeliveredOutput := by
  intro i s t h
  obtain ⟨o, -, rfl⟩ := exec_eq_next.mp h
  exact ⟨s.deliver_params o, s.deliver_pending o,
    State.readByte_congr (s.deliver_pending o), o, s.deliver_delivered o⟩

/-- Settles O28: the output's kind is the instruction's, and decoding keeps the kind. -/
theorem stepAnswersExactlyOneTransaction : Obligations.StepAnswersExactlyOneTransaction := by
  intro s s' t rest hp hstep
  obtain ⟨i, o, hd, ho, rfl⟩ := (step_eq_next_of_pending hp).mp hstep
  exact ⟨rfl, rfl, o, rfl, (instrOutput_isResponse ho).trans (decode_row_isSome hd)⟩

/-- Settles O33: the output `instrOutput` mentions the parameters and the instruction only, so the
second state delivers the one the first did. -/
theorem outputDependsOnTheTransactionAlone : Obligations.OutputDependsOnTheTransactionAlone := by
  intro s₁ s₂ u₁ t rest₁ rest₂ hparams hp₁ hp₂ hstep
  obtain ⟨i, o, hd, ho, rfl⟩ := (step_eq_next_of_pending hp₁).mp hstep
  exact ⟨o, _, (step_eq_next_of_pending hp₂).mpr ⟨i, o, hd, hparams ▸ ho, rfl⟩, rfl, rfl⟩

/-- Settles O19: no body reads the header (`parse_setHdr`). -/
theorem headerIsIgnored : Obligations.HeaderIsIgnored := by
  intro p r hdr
  exact parse_setHdr p (ScanMode.ofCode r.mode) r.wide r.operands hdr

/-- Settles O20, by cases on the three kinds of response. -/
theorem statusCodes : Obligations.StatusCodes := by
  intro r
  match r with
  | .ok d => simp [Response.status]
  | .err .invalidMode => simp [Response.status]
  | .err (.truncatedPacket e a) => simp [Response.status]

/-- Settles O26. -/
theorem stepRunsTheDecodedInstruction : Obligations.StepRunsTheDecodedInstruction := by
  intro s t rest i hp hd
  exact step_of_decode hp hd

/-- Settles O30: the recommended parameters are legal, and nothing is ahead or behind after reset. -/
theorem resetMeetsTheInvariant : Obligations.ResetMeetsTheInvariant :=
  ⟨State.resetWith_inv (Params.wf_iff.mpr (by decide)), fun _ => State.resetWith_inv⟩

/-- Settles O35: nothing is pending after reset, so the step is idle. -/
theorem resetLeavesTheCoreIdle : Obligations.ResetLeavesTheCoreIdle :=
  ⟨State.resetWith_pending _, State.resetWith_delivered _,
    step_of_pending_nil (State.resetWith_pending _), fun _ => rfl⟩

/-- Settles O37: the word's transaction is first in line, so the step takes it and leaves the state as
it was before the word was presented. -/
theorem presentedWordRunsNext : Obligations.PresentedWordRunsNext := by
  intro s nbits w i h
  obtain ⟨t, hw, hd⟩ := decodeTableWord_eq_some.mp h
  rw [State.withFetchWord_eq hw]
  exact step_of_decode rfl hd

end Sys2Proof.Machine
end

section
/-! The encoder against the decoder. A request is built from a mode, a shape and operands, and no other
request exists; what a built request selects is the row of its mode and shape. -/

namespace Sys2Proof

/-- The `PARSE` row of a mode and a shape, as the table of 30_encoding R62 lists it. -/
def CtlSel.ofFields : ScanMode → Bool → CtlSel
  | .disabled, _ => .dis
  | .background, false => .nBg
  | .manual, false => .nMan
  | .channelScan, false => .nCs
  | .background, true => .wBg
  | .manual, true => .wMan
  | .channelScan, true => .wCs

theorem selectRow_eq_ofFields (mode : ScanMode) (wide : Bool) :
    selectRow (BitVec.ofBool wide ++ mode.code) = some (.ofFields mode wide) := by
  rw [selectRow_code]
  cases mode <;> cases wide <;> rfl

/-- All four patterns of two bits are codes of a mode (30_encoding R61). -/
@[simp] theorem ScanMode.code_ofCode (c : BitVec 2) : (ScanMode.ofCode c).code = c := by
  unfold ScanMode.ofCode
  split_ifs with h0 h1 h2
  · exact h0.symm
  · exact h1.symm
  · exact h2.symm
  · show 0b11#2 = c
    bv_omega

/-- Every request is built from the mode of its code, its shape and its operands. -/
@[simp] theorem Request.build_ofCode (r : Request) :
    Request.build (.ofCode r.mode) r.wide r.operands = r := by
  simp only [Request.build, ScanMode.code_ofCode, Request.operands]

/-- The control word of a bare request is the one it was made from (30_encoding R60). -/
@[simp] theorem Request.ctl_bare (c : Ctl) : (Request.bare c).ctl = c := by
  simp only [Request.ctl, Request.bare]
  ext k hk
  rw [BitVec.getElem_append]
  split
  · simp [BitVec.getLsbD_eq_getElem hk]
  · simp [show k = 2 by omega, BitVec.getLsbD_eq_getElem]

/-- Exactly one row accepts the control word of any request. -/
theorem rowCount_ctl (r : Request) : (ctlRows.filter (·.accepts r.ctl)).length = 1 := by
  have hrow := row_build (.ofCode r.mode) r.wide r.operands
  rw [Request.build_ofCode] at hrow
  exact congrArg Prod.snd hrow

/-- The selection finds the row of the request's mode and shape. -/
theorem selectRow_ctl (r : Request) :
    selectRow r.ctl = some (.ofFields (.ofCode r.mode) r.wide) := by
  rw [← selectRow_eq_ofFields, ScanMode.code_ofCode, Request.ctl]

theorem decode_build (mode : ScanMode) (wide : Bool) (ops : ParseOperands) :
    decode (.parse (Request.build mode wide ops)) =
      .ok ((CtlSel.ofFields mode wide).instr wide ops) :=
  decode_parse_eq_ok.mpr ⟨_, selectRow_eq_ofFields mode wide, rfl⟩

theorem decode_apply_toWord (fn : BinFn) (b : BinGroup) :
    decode (.apply fn b.toWord) = .ok (fn.instr b) := by
  rw [decode_apply_eq_ok, BinGroup.ofWord_toWord]

theorem encode_instr_ofFields (mode : ScanMode) (wide : Bool) (ops : ParseOperands) :
    encode ((CtlSel.ofFields mode wide).instr wide ops) =
      .parse (Request.build mode wide ops) := by
  cases mode <;> cases wide <;> rfl

theorem encode_instr_binFn (fn : BinFn) (b : BinGroup) :
    encode (fn.instr b) = .apply fn b.toWord := by
  cases fn <;> rfl

/-- Each constructor is the row of its own mode and shape, or its own Bin Decoder function. -/
theorem decode_encode (i : Instr) : decode (encode i) = .ok i := by
  cases i with
  | parseDis wide ops => exact decode_build .disabled wide ops
  | parseNBg ops => exact decode_build .background false ops
  | parseNMan ops => exact decode_build .manual false ops
  | parseNCs ops => exact decode_build .channelScan false ops
  | parseWBg ops => exact decode_build .background true ops
  | parseWMan ops => exact decode_build .manual true ops
  | parseWCs ops => exact decode_build .channelScan true ops
  | maxmag b => exact decode_apply_toWord .maxmag b
  | maxidx b => exact decode_apply_toWord .maxidx b
  | bmw b => exact decode_apply_toWord .bmw b
  | bindec b => exact decode_apply_toWord .bindec b

/-- Every transaction is the encoding of an instruction: the encoder leaves no bit pattern out. -/
theorem encode_surjective : Function.Surjective encode := by
  intro t
  cases t with
  | parse r =>
    refine ⟨(CtlSel.ofFields (.ofCode r.mode) r.wide).instr r.wide r.operands, ?_⟩
    rw [encode_instr_ofFields, Request.build_ofCode]
  | apply fn w =>
    refine ⟨fn.instr (BinGroup.ofWord w), ?_⟩
    rw [encode_instr_binFn, BinGroup.toWord_ofWord]

/-- Bits that stand for the encoding of an instruction are read as that instruction. -/
theorem decodeTableWord_of_encode {nbits w : Nat} {i : Instr}
    (h : wordTransaction nbits w = .ok (encode i)) : decodeTableWord nbits w = some i :=
  decodeTableWord_eq_some.mpr ⟨encode i, h, decode_encode i⟩

end Sys2Proof
end

section
/-! The statements of 30_encoding.md, settled. -/

namespace Sys2Proof

/-- Settles O21, by cases on the rows (`decode_encode`). -/
theorem decodeEncodeRoundTrip : Obligations.DecodeEncodeRoundTrip :=
  decode_encode

/-- Settles O22: a transaction is the encoding of some instruction (`encode_surjective`), and that is
the one it decodes to. -/
theorem encodeDecodeRoundTrip : Obligations.EncodeDecodeRoundTrip := by
  intro t
  obtain ⟨i, rfl⟩ := encode_surjective t
  exact ⟨i, decode_encode i, rfl⟩

/-- Settles O23: every control word is the one of a request, and a request's selects one row. -/
theorem everyControlWordSelectsOneRow : Obligations.EveryControlWordSelectsOneRow := by
  intro c
  rw [← Request.ctl_bare c, selectRow_ctl]
  exact ⟨rowCount_ctl (Request.bare c), rfl⟩

/-- Settles O24: each word is the encoding of its instruction. -/
theorem knownWordsDecode : Obligations.KnownWordsDecode :=
  ⟨decodeTableWord_of_encode (by decide), decodeTableWord_of_encode (by decide),
    decodeTableWord_of_encode (by decide), decodeTableWord_of_encode (by decide),
    decodeTableWord_of_encode (by decide)⟩

end Sys2Proof
end

section
/-! The Bin Decoder in numbers: each result, and the 24-bit word of a bin-group, as a function of the
values of the three bytes. -/

namespace Sys2Proof

/-- The high part of an appended word counts in units of the low part's range. -/
theorem toNat_append_eq_add {m n : Nat} (x : BitVec m) (y : BitVec n) :
    (x ++ y).toNat = 2 ^ n * x.toNat + y.toNat := by
  rw [BitVec.toNat_append, ← Nat.shiftLeft_add_eq_or_of_lt y.isLt, Nat.shiftLeft_eq, Nat.mul_comm]

/-- The word of a bin-group, byte 0 lowest (30_encoding R65). -/
theorem BinGroup.toWord_toNat (b : BinGroup) :
    b.toWord.toNat = b.b0.toNat + 256 * b.b1.toNat + 65536 * b.b2.toNat := by
  rw [BinGroup.toWord, toNat_append_eq_add, toNat_append_eq_add]
  omega

theorem BinGroup.eq_of_toNat_eq {b c : BinGroup} (h0 : b.b0.toNat = c.b0.toNat)
    (h1 : b.b1.toNat = c.b1.toNat) (h2 : b.b2.toNat = c.b2.toNat) : b = c := by
  cases b
  cases c
  rw [BinGroup.mk.injEq]
  exact ⟨BitVec.eq_of_toNat_eq h0, BitVec.eq_of_toNat_eq h1, BitVec.eq_of_toNat_eq h2⟩

namespace Machine

/-- The three fragments of `MAXMAG` lie side by side, so their OR is their sum. -/
theorem maxMagnitude_toNat (b : BinGroup) :
    (maxMagnitude b).toNat = b.b0.toNat / 64 + 4 * b.b1.toNat + 1024 * (b.b2.toNat % 4) := by
  have hlo : (b.b0.setWidth 16 >>> 6).toNat = b.b0.toNat / 64 := by bv_omega
  have hmid : (b.b1.setWidth 16 <<< 2).toNat = b.b1.toNat <<< 2 := by
    rw [Nat.shiftLeft_eq]
    bv_omega
  have hhi : ((b.b2.setWidth 16 &&& 0x0003#16) <<< 10).toNat = (b.b2.toNat % 4) <<< 10 := by
    have hand : (b.b2.setWidth 16 &&& 0x0003#16).toNat = b.b2.toNat % 4 := by
      rw [BitVec.toNat_and, BitVec.toNat_setWidth_of_le (by decide)]
      exact Nat.and_two_pow_sub_one_eq_mod _ 2
    rw [Nat.shiftLeft_eq]
    bv_omega
  have hmidlo : b.b1.toNat <<< 2 ||| b.b0.toNat / 64 = b.b1.toNat <<< 2 + b.b0.toNat / 64 :=
    (Nat.shiftLeft_add_eq_or_of_lt (by omega) _).symm
  have hlow : b.b1.toNat <<< 2 + b.b0.toNat / 64 < 2 ^ 10 := by
    rw [Nat.shiftLeft_eq]
    omega
  calc (maxMagnitude b).toNat
      = (b.b2.toNat % 4) <<< 10 ||| (b.b1.toNat <<< 2 ||| b.b0.toNat / 64) := by
        simp only [maxMagnitude, BitVec.toNat_or, hlo, hmid, hhi, Nat.or_comm]
    _ = (b.b2.toNat % 4) <<< 10 + (b.b1.toNat <<< 2 + b.b0.toNat / 64) := by
        rw [hmidlo, Nat.shiftLeft_add_eq_or_of_lt hlow]
    _ = b.b0.toNat / 64 + 4 * b.b1.toNat + 1024 * (b.b2.toNat % 4) := by
        rw [Nat.shiftLeft_eq, Nat.shiftLeft_eq]
        omega

/-- The concatenation of 40_bin_decoder R91 has the same value. -/
theorem maxMagnitude_eq_append (b : BinGroup) :
    maxMagnitude b = (b.b2.extractLsb' 0 2 ++ b.b1 ++ b.b0.extractLsb' 6 2).setWidth 16 := by
  apply BitVec.eq_of_toNat_eq
  rw [maxMagnitude_toNat, BitVec.toNat_setWidth_of_le (by decide), toNat_append_eq_add,
    toNat_append_eq_add, BitVec.extractLsb'_toNat, BitVec.extractLsb'_toNat,
    Nat.shiftRight_eq_div_pow]
  omega

theorem bitmapWeight_toNat (b : BinGroup) : (bitmapWeight b).toNat = b.b0.toNat % 64 := by
  rw [bitmapWeight, BitVec.toNat_and]
  exact Nat.and_two_pow_sub_one_eq_mod _ 6

/-- The mask of the index field takes nothing away: the shift leaves six bits. -/
theorem indexField_toNat (b : BinGroup) : (indexField b).toNat = b.b2.toNat / 4 := by
  have hmask : (indexField b).toNat = (b.b2 >>> 2).toNat % 64 := by
    rw [indexField, BitVec.toNat_and]
    exact Nat.and_two_pow_sub_one_eq_mod _ 6
  rw [hmask]
  bv_omega

/-- A field of 32 or more has bit 5 set, so setting bits 7 to 5 adds only the upper two of them. -/
theorem or_224_eq_add {f : Nat} (hmin : 32 ≤ f) (hmax : f < 64) : f ||| 224 = f + 192 := by
  have hrest : f - 32 < 2 ^ 5 := by omega
  calc f ||| 224
      = (2 ^ 5 * 1 ||| (f - 32)) ||| 2 ^ 5 * 7 := by
        rw [← Nat.two_pow_add_eq_or_of_lt hrest, Nat.mul_one, Nat.add_sub_cancel' hmin]
        rfl
    _ = 2 ^ 5 * 7 ||| (f - 32) := by rw [Nat.or_right_comm]; rfl
    _ = f + 192 := by
        rw [← Nat.two_pow_add_eq_or_of_lt hrest]
        omega

/-- Sign extension of the six index bits to eight, in numbers. -/
theorem signExtend_index_toNat (b : BinGroup) :
    ((b.b2.extractLsb' 2 6).signExtend 8).toNat =
      if b.b2.toNat / 4 < 32 then b.b2.toNat / 4 else b.b2.toNat / 4 + 192 := by
  have hfield : (b.b2.extractLsb' 2 6).toNat = b.b2.toNat / 4 := by
    rw [BitVec.extractLsb'_toNat, Nat.shiftRight_eq_div_pow]
    omega
  rw [BitVec.toNat_signExtend, BitVec.toNat_setWidth_of_le (by decide), BitVec.msb_eq_decide,
    hfield]
  by_cases h : b.b2.toNat / 4 < 32
  · simp [h]
  · simp [h, show 32 ≤ b.b2.toNat / 4 by omega]

/-- What `MAXIDX` does to the field before it adds 29 is the sign extension. -/
theorem maxIndex_eq_signExtend (b : BinGroup) :
    maxIndex b = (b.b2.extractLsb' 2 6).signExtend 8 + 29#8 := by
  have hfield := indexField_toNat b
  have hext :
      (if Config.idxNegMin ≤ indexField b then indexField b ||| 0xE0#8 else indexField b) =
      (b.b2.extractLsb' 2 6).signExtend 8 := by
    apply BitVec.eq_of_toNat_eq
    rw [signExtend_index_toNat]
    by_cases hneg : Config.idxNegMin ≤ indexField b
    · have hge : 32 ≤ b.b2.toNat / 4 := by bv_omega
      rw [if_pos hneg, if_neg (by omega), BitVec.toNat_or, hfield]
      exact or_224_eq_add hge (by omega)
    · have hlt : b.b2.toNat / 4 < 32 := by bv_omega
      rw [if_neg hneg, if_pos hlt, hfield]
  rw [maxIndex, hext]

/-- The closed form of `MAXIDX` in the value of byte 2. -/
theorem maxIndex_toNat (b : BinGroup) :
    (maxIndex b).toNat =
      if b.b2.toNat / 4 < 32 then b.b2.toNat / 4 + 29
      else if b.b2.toNat / 4 < 35 then b.b2.toNat / 4 + 221
      else b.b2.toNat / 4 - 35 := by
  rw [maxIndex_eq_signExtend, BitVec.toNat_add, signExtend_index_toNat, BitVec.toNat_ofNat]
  split_ifs <;> omega

/-- The closed form is one-to-one on the 64 fields. -/
theorem maxIndex_eq_iff (b c : BinGroup) :
    maxIndex b = maxIndex c ↔ b.b2.toNat / 4 = c.b2.toNat / 4 := by
  rw [← BitVec.toNat_inj, maxIndex_toNat, maxIndex_toNat]
  constructor
  · intro h
    split_ifs at h <;> omega
  · intro h
    rw [h]

/-- A result of 0 to 60 or 253 to 255 is the one of the bin-group whose index field is that result
less 29. -/
theorem maxIndex_sub_field {v : Byte} (h : v.toNat ≤ 60 ∨ 253 ≤ v.toNat) :
    maxIndex ⟨0#8, 0#8, (v - 29#8) <<< 2⟩ = v := by
  have hfield : ((v - 29#8) <<< 2).toNat / 4 = (v.toNat + 227) % 64 := by bv_omega
  apply BitVec.eq_of_toNat_eq
  rw [maxIndex_toNat]
  simp only [hfield]
  split_ifs <;> omega

/-- Between them the three results hold every bit of the three bytes. -/
theorem decodeGroup_injective : Function.Injective decodeGroup := by
  intro b c h
  obtain ⟨hmag, hidx, hbmw⟩ := DecodedBinGroup.mk.inj h
  have hfield := (maxIndex_eq_iff b c).mp hidx
  have hmag := congrArg BitVec.toNat hmag
  have hbmw := congrArg BitVec.toNat hbmw
  rw [maxMagnitude_toNat, maxMagnitude_toNat] at hmag
  rw [bitmapWeight_toNat, bitmapWeight_toNat] at hbmw
  apply BinGroup.eq_of_toNat_eq <;> omega

end Machine
end Sys2Proof
end

section
/-! The groups of a sample: each is decoded from three bytes at a place of the packet, and from those
bytes alone. -/

namespace Sys2Proof.Machine

/-- Places that hold the same three bytes hold the same bin-group. -/
theorem readGroup_unique {m n : Memory} {off off' : Nat} {g g' : BinGroup}
    (hg : readGroup m off = .ok g) (hg' : readGroup n off' = .ok g')
    (h : ∀ k < 3, m.read (off + k) = n.read (off' + k)) : g = g' := by
  have hsame : readGroup n off' = .ok g := by
    rw [readGroup_eq_ok] at hg ⊢
    rw [← h 1 (by decide), ← h 2 (by decide), ← Nat.add_zero off', ← h 0 (by decide)]
    exact hg
  exact Except.ok.inj (hsame.symm.trans hg')

/-- A narrow sample's group is decoded from the bytes behind the bins (20_memory R47). -/
theorem parse_narrow_group {p : Params} {mode : ScanMode} {ops : ParseOperands}
    {d : DecodedSample} (h : parse p mode false ops = .ok (.ok d)) :
    ∃ g, readGroup ops.raw p.nbNarrow = .ok g ∧ d.groups = .narrow (decodeGroup g) := by
  rcases parse_eq_ok.mp h with ⟨-, herr⟩ | ⟨-, -, herr⟩ | ⟨-, -, hshape, -⟩ | ⟨-, -, -, _, hd, ⟨⟩⟩
  · cases herr
  · cases herr
  · cases hshape
  · obtain ⟨_, g, _, _, -, hg, -, -, rfl⟩ := narrowBody_eq_ok.mp hd
    exact ⟨g, hg, rfl⟩

/-- A wide sample's two groups are decoded from the six bytes behind the bins (20_memory R48). -/
theorem parse_wide_groups {p : Params} {mode : ScanMode} {ops : ParseOperands}
    {d : DecodedSample} (h : parse p mode true ops = .ok (.ok d)) :
    ∃ lower upper, readGroup ops.raw p.nbWide = .ok lower ∧
      readGroup ops.raw (p.nbWide + 3) = .ok upper ∧
      d.groups = .wide (decodeGroup lower) (decodeGroup upper) := by
  rcases parse_eq_ok.mp h with ⟨-, herr⟩ | ⟨-, -, herr⟩ | ⟨-, -, -, _, hd, ⟨⟩⟩ | ⟨-, -, hshape, -⟩
  · cases herr
  · cases herr
  · obtain ⟨_, lower, upper, _, _, -, hlower, hupper, -, -, rfl⟩ := wideBody_eq_ok.mp hd
    exact ⟨lower, upper, hlower, hupper, rfl⟩
  · cases hshape

end Sys2Proof.Machine
end

section
/-! The statements of 40_bin_decoder.md, settled. -/

namespace Sys2Proof.Machine

/-- Settles O1: the fragments are disjoint (`maxMagnitude_toNat`). -/
theorem maxmagIsTheTwelveBitField : Obligations.MaxmagIsTheTwelveBitField :=
  fun b => ⟨maxMagnitude_eq_append b, maxMagnitude_toNat b, maxMagnitude_le b⟩

/-- Settles O2: the OR is the sign extension (`maxIndex_eq_signExtend`), whose value gives the rest. -/
theorem maxidxSignExtendsThenAddsTwentyNine : Obligations.MaxidxSignExtendsThenAddsTwentyNine :=
  fun b => ⟨maxIndex_eq_signExtend b, maxIndex_toNat b⟩

/-- Settles O3: the field of a result is the result less 29 (`maxIndex_sub_field`). -/
theorem maxidxRangeAndInjectivity : Obligations.MaxidxRangeAndInjectivity := by
  refine ⟨fun v => ⟨?_, fun h => ⟨_, maxIndex_sub_field h⟩⟩, maxIndex_eq_iff⟩
  rintro ⟨b, rfl⟩
  exact maxIndex_range b

/-- Settles O5: each field is a quotient or remainder of the word's value. -/
theorem littleEndianWordView : Obligations.LittleEndianWordView := by
  intro b w
  refine ⟨b.toWord_toNat, ?_, ?_, ?_⟩
  · rw [maxMagnitude_toNat]
    omega
  · rw [bitmapWeight_toNat]
    omega
  · rw [indexField_toNat]
    omega

/-- Settles O6: the results hold every bit of the bytes (`decodeGroup_injective`). -/
theorem bindecIsInjective : Obligations.BindecIsInjective :=
  ⟨fun _ => rfl, fun _ _ h => decodeGroup_injective h⟩

/-- Settles O18: a group is decoded from what is read at its place, so equal bytes there give equal
groups (`readGroup_unique`). -/
theorem shapeIndependence : Obligations.ShapeIndependence := by
  intro p reqN reqW dn dw hn hw hdn hdw
  rw [parseRequest, hn] at hdn
  rw [parseRequest, hw] at hdw
  obtain ⟨g, hg, hgroups⟩ := parse_narrow_group hdn
  obtain ⟨lower, upper, hlower, hupper, hgroups'⟩ := parse_wide_groups hdw
  refine ⟨_, _, _, hgroups, hgroups', fun h => ?_, fun h => ?_⟩
  · rw [readGroup_unique hg hlower h]
  · rw [readGroup_unique hg hupper h]

/-- Settles O4: the mask is the remainder by 64 (`bitmapWeight_toNat`). -/
theorem bmwIsTheLowSixBits : Obligations.BmwIsTheLowSixBits :=
  fun b => ⟨rfl, bitmapWeight_toNat b, bitmapWeight_le b⟩

/-- Settles O7: executing a row is delivering its output (`exec_eq_next`), here its result. -/
theorem binDecoderRowsComplete : Obligations.BinDecoderRowsComplete :=
  fun _ _ => ⟨exec_eq_next.mpr ⟨_, rfl, rfl⟩, exec_eq_next.mpr ⟨_, rfl, rfl⟩,
    exec_eq_next.mpr ⟨_, rfl, rfl⟩, exec_eq_next.mpr ⟨_, rfl, rfl⟩⟩

end Sys2Proof.Machine
end

section
/-! `PARSE` as the rows of the selection table run it, and when it answers the length error. -/

namespace Sys2Proof

/-- Different codes are codes of different modes. -/
theorem ScanMode.ofCode_injective : Function.Injective ScanMode.ofCode :=
  Function.LeftInverse.injective ScanMode.code_ofCode

/-- Every request decodes to the row of its mode and shape. -/
theorem decode_request (r : Request) :
    decode (.parse r) =
      .ok ((CtlSel.ofFields (.ofCode r.mode) r.wide).instr r.wide r.operands) :=
  decode_parse_eq_ok.mpr ⟨_, selectRow_ctl r, rfl⟩

namespace Machine

/-- The row of a mode and a shape is `PARSE` with them (30_encoding R62). -/
theorem exec_ofFields (mode : ScanMode) (wide : Bool) (ops : ParseOperands) (s : State) :
    exec ((CtlSel.ofFields mode wide).instr wide ops) s =
      answer (parse s.params mode wide ops) s := by
  cases mode <;> cases wide <;> rfl

/-- A row delivers a response exactly when `PARSE` answers it. -/
theorem exec_ofFields_eq_deliver {mode : ScanMode} {wide : Bool} {ops : ParseOperands} {s : State}
    {rsp : Response} :
    exec ((CtlSel.ofFields mode wide).instr wide ops) s = .next (s.deliver (.response rsp)) ↔
      parse s.params mode wide ops = .ok rsp := by
  rw [exec_ofFields]
  cases parse s.params mode wide ops <;> simp [answer, State.deliver]

/-- In an active mode the length error answers a wrong length, and only that. -/
theorem parse_eq_truncated_iff {p : Params} {mode : ScanMode} {wide : Bool} {ops : ParseOperands}
    (hmode : mode ≠ .disabled) :
    parse p mode wide ops =
        .ok (.err (.truncatedPacket (expectedLength p wide) ops.raw.length)) ↔
      ops.raw.length ≠ expectedLength p wide := by
  rw [parse_eq_ok]
  simp [hmode]

/-- The row of an active mode delivers the length error for a wrong length, and only then. -/
theorem exec_eq_truncated_iff {mode : ScanMode} {wide : Bool} {ops : ParseOperands} {s : State}
    (hmode : mode ≠ .disabled) :
    exec ((CtlSel.ofFields mode wide).instr wide ops) s = .next (s.deliver (.response
        (.err (.truncatedPacket (expectedLength s.params wide) ops.raw.length)))) ↔
      ops.raw.length ≠ expectedLength s.params wide :=
  exec_ofFields_eq_deliver.trans (parse_eq_truncated_iff hmode)

end Machine
end Sys2Proof
end

section
/-! Packets: the buffers that the two packet maps lay out (20_memory R47, R48). A canonical buffer of
the expected length is the layout of one packet, `PARSE` answers it with that packet's sample, and a
packet can be recovered from its sample. -/

namespace Sys2Proof

/-- The one or two bin-groups of a packet, not decoded yet. -/
inductive PacketGroups where
  | narrow (all : BinGroup)
  | wide (lower upper : BinGroup)

/-- The fields of a packet, in the order of the packet maps. -/
structure Packet where
  bins   : List Byte
  groups : PacketGroups
  mexp   : Byte
  radar  : Machine.RadarInfo

/-- The shape that has these groups. -/
def PacketGroups.isWide : PacketGroups → Bool
  | .narrow _ => false
  | .wide _ _ => true

/-- The groups' bytes, the lower group before the upper one (D15, log 9). -/
def PacketGroups.bytes : PacketGroups → List Byte
  | .narrow g => [g.b0, g.b1, g.b2]
  | .wide lo up => [lo.b0, lo.b1, lo.b2, up.b0, up.b1, up.b2]

/-- `BINDEC` of each group. -/
def PacketGroups.decode : PacketGroups → Machine.DecodedGroups
  | .narrow g => .narrow (Machine.decodeGroup g)
  | .wide lo up => .wide (Machine.decodeGroup lo) (Machine.decodeGroup up)

/-- What lies behind the bins: groups, exponent byte, radar info. -/
def Packet.suffix (k : Packet) : List Byte :=
  k.groups.bytes ++ [k.mexp, k.radar.pulseLengthPrimary, k.radar.pulseLengthExtended,
    k.radar.pulseBandwidthInfo]

/-- The layout of the packet maps. -/
def Packet.bytes (k : Packet) : List Byte :=
  k.bins ++ k.suffix

/-- The packet is one of a shape: it has the shape's bins and groups. -/
structure Packet.Fits (p : Params) (wide : Bool) (k : Packet) : Prop where
  bins   : k.bins.length = Machine.binCount p wide
  groups : k.groups.isWide = wide

/-- The sample that a packet holds. -/
def Packet.sample (mode : ScanMode) (ts : Timestamp) (k : Packet) : Machine.DecodedSample :=
  { mode := mode, timestamp := ts, rawBins := k.bins, groups := k.groups.decode,
    maxExponent := k.mexp, radar := k.radar }

theorem Packet.sample_shape (mode : ScanMode) (ts : Timestamp) (k : Packet) :
    (k.sample mode ts).shape = k.groups.isWide := by
  obtain ⟨bins, groups, mexp, radar⟩ := k
  cases groups <;> rfl

/-- The buffer that a host presents for the packet. -/
def Packet.buffer (k : Packet) : Memory :=
  Memory.ofBytes k.bytes

@[simp] theorem Packet.wf_buffer (k : Packet) : k.buffer.wf = true :=
  Memory.wf_ofBytes _

@[simp] theorem Packet.bytes_buffer (k : Packet) : k.buffer.bytes = k.bytes :=
  Memory.bytes_ofBytes _

@[simp] theorem Packet.slice_bins (k : Packet) :
    k.buffer.slice 0 k.bins.length = .ok k.bins := by
  rw [Packet.buffer, Memory.slice_ofBytes (by simp [Packet.bytes])]
  simp [Packet.bytes]

/-- Offsets from the end of the bins on are those of the suffix. -/
@[simp] theorem Packet.read_add (k : Packet) (i : Nat) :
    k.buffer.read (k.bins.length + i) = k.suffix[i]? := by
  rw [Packet.buffer, Memory.read_ofBytes, Packet.bytes,
    List.getElem?_append_right (Nat.le_add_right _ _), Nat.add_sub_cancel_left]

@[simp] theorem Packet.read_length (k : Packet) :
    k.buffer.read k.bins.length = k.suffix[0]? :=
  k.read_add 0

theorem Packet.suffix_narrow {k : Packet} {g : BinGroup} (h : k.groups = .narrow g) :
    k.suffix = [g.b0, g.b1, g.b2, k.mexp, k.radar.pulseLengthPrimary,
      k.radar.pulseLengthExtended, k.radar.pulseBandwidthInfo] := by
  rw [Packet.suffix, h]
  rfl

theorem Packet.suffix_wide {k : Packet} {lo up : BinGroup} (h : k.groups = .wide lo up) :
    k.suffix = [lo.b0, lo.b1, lo.b2, up.b0, up.b1, up.b2, k.mexp, k.radar.pulseLengthPrimary,
      k.radar.pulseLengthExtended, k.radar.pulseBandwidthInfo] := by
  rw [Packet.suffix, h]
  rfl

theorem PacketGroups.decode_injective : Function.Injective PacketGroups.decode := by
  intro a b h
  cases a with
  | narrow g =>
    cases b with
    | narrow g' =>
      rw [Machine.decodeGroup_injective (Machine.DecodedGroups.narrow.inj h)]
    | wide lo' up' => cases h
  | wide lo up =>
    cases b with
    | narrow g' => cases h
    | wide lo' up' =>
      obtain ⟨hlo, hup⟩ := Machine.DecodedGroups.wide.inj h
      rw [Machine.decodeGroup_injective hlo, Machine.decodeGroup_injective hup]

/-- A sample holds its mode, its timestamp and the whole packet (41_sample_parser R123). -/
theorem Packet.sample_inj {mode mode' : ScanMode} {ts ts' : Timestamp} {k k' : Packet}
    (h : k.sample mode ts = k'.sample mode' ts') : mode = mode' ∧ ts = ts' ∧ k = k' := by
  obtain ⟨hmode, hts, hbins, hgroups, hmexp, hradar⟩ := Machine.DecodedSample.mk.inj h
  refine ⟨hmode, hts, ?_⟩
  cases k
  cases k'
  rw [Packet.mk.injEq]
  exact ⟨hbins, PacketGroups.decode_injective hgroups, hmexp, hradar⟩

/-- A list of seven bytes more than the bins is a narrow packet, one of ten more a wide one. -/
theorem Packet.exists_of_length {p : Params} {wide : Bool} {bs : List Byte}
    (h : bs.length = Machine.expectedLength p wide) :
    ∃ k : Packet, k.Fits p wide ∧ k.bytes = bs := by
  cases wide with
  | false =>
    rw [Machine.expectedLength_narrow] at h
    have hlen : (bs.drop p.nbNarrow).length = 7 := by rw [List.length_drop]; omega
    match hs : bs.drop p.nbNarrow, hlen with
    | [g0, g1, g2, mexp, r0, r1, r2], _ =>
      refine ⟨⟨bs.take p.nbNarrow, .narrow ⟨g0, g1, g2⟩, mexp, ⟨r0, r1, r2⟩⟩,
        ⟨List.length_take_of_le (by omega), rfl⟩, ?_⟩
      exact (congrArg (bs.take p.nbNarrow ++ ·) hs.symm).trans (List.take_append_drop _ _)
  | true =>
    rw [Machine.expectedLength_wide] at h
    have hlen : (bs.drop p.nbWide).length = 10 := by rw [List.length_drop]; omega
    match hs : bs.drop p.nbWide, hlen with
    | [l0, l1, l2, u0, u1, u2, mexp, r0, r1, r2], _ =>
      refine ⟨⟨bs.take p.nbWide, .wide ⟨l0, l1, l2⟩ ⟨u0, u1, u2⟩, mexp, ⟨r0, r1, r2⟩⟩,
        ⟨List.length_take_of_le (by omega), rfl⟩, ?_⟩
      exact (congrArg (bs.take p.nbWide ++ ·) hs.symm).trans (List.take_append_drop _ _)

theorem Packet.Fits.length_buffer {p : Params} {wide : Bool} {k : Packet} (h : k.Fits p wide) :
    k.buffer.length = Machine.expectedLength p wide := by
  obtain ⟨hbins, rfl⟩ := h
  rw [Packet.buffer, Memory.length_ofBytes, Packet.bytes, List.length_append, hbins]
  cases hg : k.groups with
  | narrow g => rw [Packet.suffix_narrow hg]; rfl
  | wide lo up => rw [Packet.suffix_wide hg]; rfl

/-- A canonical buffer of the expected length is the layout of a packet of the shape. -/
theorem Packet.exists_of_buffer {p : Params} {wide : Bool} {m : Memory} (hm : m.wf = true)
    (h : m.length = Machine.expectedLength p wide) :
    ∃ k : Packet, k.Fits p wide ∧ m = k.buffer := by
  obtain ⟨k, hk, hbytes⟩ := Packet.exists_of_length ((Memory.length_bytes m).trans h)
  exact ⟨k, hk, Memory.eq_of_bytes_eq hm k.wf_buffer (hbytes.symm.trans k.bytes_buffer.symm)⟩

namespace Machine

/-- The narrow body reads each field where the packet's layout puts it. -/
theorem narrowBody_buffer {mode : ScanMode} {ops : ParseOperands} {k : Packet} {g : BinGroup}
    (hraw : ops.raw = k.buffer) (hg : k.groups = .narrow g) :
    narrowBody k.bins.length mode ops = .ok (k.sample mode ops.ts) := by
  have hsuffix := Packet.suffix_narrow hg
  refine narrowBody_eq_ok.mpr ⟨k.bins, g, k.mexp, k.radar, ?bins, readGroup_eq_ok.mpr ?group,
    readByte_eq_ok.mpr ?mexp, readRadar_eq_ok.mpr ?radar, ?sample⟩
  case bins => rw [hraw, k.slice_bins]
  case sample => rw [Packet.sample, hg, PacketGroups.decode]
  all_goals simp [hraw, hsuffix, Nat.add_assoc]

/-- So does the wide body. -/
theorem wideBody_buffer {mode : ScanMode} {ops : ParseOperands} {k : Packet} {lo up : BinGroup}
    (hraw : ops.raw = k.buffer) (hg : k.groups = .wide lo up) :
    wideBody k.bins.length mode ops = .ok (k.sample mode ops.ts) := by
  have hsuffix := Packet.suffix_wide hg
  refine wideBody_eq_ok.mpr ⟨k.bins, lo, up, k.mexp, k.radar, ?bins, readGroup_eq_ok.mpr ?lower,
    readGroup_eq_ok.mpr ?upper, readByte_eq_ok.mpr ?mexp, readRadar_eq_ok.mpr ?radar, ?sample⟩
  case bins => rw [hraw, k.slice_bins]
  case sample => rw [Packet.sample, hg, PacketGroups.decode]
  all_goals simp [hraw, hsuffix, Nat.add_assoc]

/-- A packet of the shape, in an active mode, is answered by its sample. -/
theorem parse_buffer {p : Params} {mode : ScanMode} {wide : Bool} {ops : ParseOperands}
    {k : Packet} (hmode : mode ≠ .disabled) (hk : k.Fits p wide) (hraw : ops.raw = k.buffer) :
    parse p mode wide ops = .ok (.ok (k.sample mode ops.ts)) := by
  have hlen : ops.raw.length = expectedLength p wide := hraw ▸ hk.length_buffer
  obtain ⟨hbins, hgroups⟩ := hk
  refine parse_eq_ok.mpr (.inr (.inr ?_))
  cases hg : k.groups with
  | narrow g =>
    obtain rfl : false = wide := by rw [← hgroups, hg, PacketGroups.isWide]
    rw [binCount_narrow] at hbins
    exact .inr ⟨hmode, hlen, rfl, _, hbins ▸ narrowBody_buffer hraw hg, rfl⟩
  | wide lo up =>
    obtain rfl : true = wide := by rw [← hgroups, hg, PacketGroups.isWide]
    rw [binCount_wide] at hbins
    exact .inl ⟨hmode, hlen, rfl, _, hbins ▸ wideBody_buffer hraw hg, rfl⟩

/-- The row of an active mode completes on a packet of its shape. -/
theorem exec_packet {mode : ScanMode} {wide : Bool} {ops : ParseOperands} {s : State} {k : Packet}
    (hmode : mode ≠ .disabled) (hk : k.Fits s.params wide) (hraw : ops.raw = k.buffer) :
    exec ((CtlSel.ofFields mode wide).instr wide ops) s =
      .next (s.deliver (.response (.ok (k.sample mode ops.ts)))) :=
  exec_ofFields_eq_deliver.mpr (parse_buffer hmode hk hraw)

/-- The answer is a sample only in an active mode and at the expected length. -/
theorem active_and_length_of_parse_ok {p : Params} {mode : ScanMode} {wide : Bool}
    {ops : ParseOperands} {d : DecodedSample} (h : parse p mode wide ops = .ok (.ok d)) :
    mode ≠ .disabled ∧ ops.raw.length = expectedLength p wide := by
  rcases parse_eq_ok.mp h with ⟨-, herr⟩ | ⟨-, -, herr⟩ | ⟨hmode, hlen, -⟩ | ⟨hmode, hlen, -⟩
  · cases herr
  · cases herr
  · exact ⟨hmode, hlen⟩
  · exact ⟨hmode, hlen⟩

/-- Everything that is answered by a sample: the packets of the shape, in an active mode. -/
theorem parse_eq_ok_sample {p : Params} {mode : ScanMode} {wide : Bool} {ops : ParseOperands}
    {d : DecodedSample} (hraw : ops.raw.wf = true) :
    parse p mode wide ops = .ok (.ok d) ↔
      mode ≠ .disabled ∧
        ∃ k : Packet, k.Fits p wide ∧ ops.raw = k.buffer ∧ d = k.sample mode ops.ts := by
  constructor
  · intro h
    obtain ⟨hmode, hlen⟩ := active_and_length_of_parse_ok h
    obtain ⟨k, hk, hbuffer⟩ := Packet.exists_of_buffer hraw hlen
    rw [parse_buffer hmode hk hbuffer] at h
    cases h
    exact ⟨hmode, k, hk, hbuffer, rfl⟩
  · rintro ⟨hmode, k, hk, hbuffer, rfl⟩
    exact parse_buffer hmode hk hbuffer

/-- A canonical buffer is decoded exactly in an active mode and at the expected length. -/
theorem exists_sample_iff {p : Params} {mode : ScanMode} {wide : Bool} {ops : ParseOperands}
    (hraw : ops.raw.wf = true) :
    (∃ d, parse p mode wide ops = .ok (.ok d)) ↔
      mode ≠ .disabled ∧ ops.raw.length = expectedLength p wide := by
  constructor
  · rintro ⟨d, h⟩
    exact active_and_length_of_parse_ok h
  · rintro ⟨hmode, hlen⟩
    obtain ⟨k, hk, hbuffer⟩ := Packet.exists_of_buffer hraw hlen
    exact ⟨_, parse_buffer hmode hk hbuffer⟩

/-- `PARSE` is total on canonical buffers (41_sample_parser R110). -/
theorem parse_total (p : Params) (mode : ScanMode) (wide : Bool) {ops : ParseOperands}
    (hraw : ops.raw.wf = true) : ∃ rsp, parse p mode wide ops = .ok rsp := by
  by_cases hmode : mode = .disabled
  · exact ⟨_, parse_eq_ok.mpr (.inl ⟨hmode, rfl⟩)⟩
  by_cases hlen : ops.raw.length = expectedLength p wide
  · obtain ⟨d, hd⟩ := (exists_sample_iff hraw).mpr ⟨hmode, hlen⟩
    exact ⟨_, hd⟩
  · exact ⟨_, (parse_eq_truncated_iff hmode).mpr hlen⟩

end Machine
end Sys2Proof
end

section
/-! A step on a request, and a step from a state whose pending buffers are canonical. -/

namespace Sys2Proof.Machine

/-- The six-step algorithm is what the decoder and the dispatch lead a request to
(41_sample_parser R110, 30_encoding R62). -/
theorem step_request {s : State} {r : Request} {rest : List Transaction}
    (hp : s.pending = .parse r :: rest) :
    step s = answer (parseRequest s.params r) { s with pending := rest } := by
  rw [step_of_decode hp (decode_request r), exec_ofFields, parseRequest]

/-- A function applied on its own always has a result (log 4). -/
theorem exec_binFn_total (fn : BinFn) (b : BinGroup) (s : State) :
    ∃ o, exec (fn.instr b) s = .next (s.deliver o) := by
  cases fn <;> exact ⟨_, rfl⟩

/-- A step takes any transaction whose buffer is canonical and delivers an output. -/
theorem step_total {s : State} {t : Transaction} {rest : List Transaction}
    (hp : s.pending = t :: rest) (ht : ∀ r, t = .parse r → r.raw.wf = true) :
    ∃ o, step s = .next (State.deliver { s with pending := rest } o) := by
  cases t with
  | parse r =>
    obtain ⟨rsp, hrsp⟩ :=
      parse_total s.params (.ofCode r.mode) r.wide (ops := r.operands) (ht r rfl)
    rw [step_request hp]
    exact ⟨_, answer_eq_next.mpr ⟨rsp, hrsp, rfl⟩⟩
  | apply fn w =>
    rw [step_of_decode hp (decode_apply_eq_ok.mpr rfl)]
    exact exec_binFn_total fn _ _

end Sys2Proof.Machine
end

section
/-! The statements of 41_sample_parser.md, settled. -/

namespace Sys2Proof.Machine

/-- Settles O31: the idle step keeps everything; any other takes the first transaction away, whose
canonical buffer `PARSE` answers (`parse_total`). -/
theorem canonicalBuffersNeverStop : Obligations.CanonicalBuffersNeverStop := by
  intro s hs
  cases hp : s.pending with
  | nil => exact ⟨s, step_of_pending_nil hp, hs⟩
  | cons t rest =>
    rw [hp] at hs
    obtain ⟨o, hstep⟩ := step_total hp fun r hr => hs r (hr ▸ List.mem_cons_self)
    exact ⟨_, hstep, fun r hr => hs r (List.mem_cons_of_mem t hr)⟩

/-- Settles O9: each row is the one of an active mode and a shape (`exec_eq_truncated_iff`). -/
theorem lengthMismatchAnswersTruncatedPacket :
    Obligations.LengthMismatchAnswersTruncatedPacket := by
  intro ops s
  have hrow (mode : ScanMode) (wide : Bool) :=
    exec_eq_truncated_iff (mode := mode) (wide := wide) (ops := ops) (s := s)
  simp only [List.forall_mem_cons, List.not_mem_nil, false_imp_iff, implies_true, and_true]
  exact ⟨⟨hrow .background false nofun, hrow .manual false nofun, hrow .channelScan false nofun⟩,
    hrow .background true nofun, hrow .manual true nofun, hrow .channelScan true nofun⟩

/-- Settles O10: the bytes are the layout of a narrow packet (`exec_packet`). -/
theorem narrowPacketIsDecoded : Obligations.NarrowPacketIsDecoded := by
  intro s hdr ts bins g mexp r0 r1 r2 hbins ops after
  have hk : Packet.Fits s.params false ⟨bins, .narrow g, mexp, ⟨r0, r1, r2⟩⟩ := ⟨hbins, rfl⟩
  have hrow (mode : ScanMode) (hmode : mode ≠ .disabled) :=
    exec_packet (ops := ops) hmode hk rfl
  exact ⟨hrow .background nofun, hrow .manual nofun, hrow .channelScan nofun⟩

/-- Settles O11: the bytes are the layout of a wide packet. -/
theorem widePacketIsDecoded : Obligations.WidePacketIsDecoded := by
  intro s hdr ts bins lo up mexp r0 r1 r2 hbins ops after
  have hk : Packet.Fits s.params true ⟨bins, .wide lo up, mexp, ⟨r0, r1, r2⟩⟩ := ⟨hbins, rfl⟩
  have hrow (mode : ScanMode) (hmode : mode ≠ .disabled) :=
    exec_packet (ops := ops) hmode hk rfl
  exact ⟨hrow .background nofun, hrow .manual nofun, hrow .channelScan nofun⟩

/-- Settles O12: the selection table finds the row of the request's mode and shape, and that row is
`PARSE` with them (`step_request`). -/
theorem stepOnRequestIsParse : Obligations.StepOnRequestIsParse := by
  intro s r rest hp
  exact step_request hp

/-- Settles O13 (`exists_sample_iff`). -/
theorem successIffActiveModeAndExactLength : Obligations.SuccessIffActiveModeAndExactLength := by
  intro p r hraw
  exact exists_sample_iff (ops := r.operands) hraw

/-- Settles O16: the request's buffer is the layout of a packet, the sample is that packet's, and the
suffix of the layout says what lies at each offset behind the bins. -/
theorem sampleHoldsTheRequestsFields : Obligations.SampleHoldsTheRequestsFields := by
  intro p r d hraw h
  obtain ⟨-, k, ⟨hbins, hshape⟩, hbuffer, rfl⟩ :=
    (parse_eq_ok_sample (ops := r.operands) hraw).mp h
  replace hbuffer : r.raw = k.buffer := hbuffer
  intro nb mx
  have hnb : nb = k.bins.length := hbins.symm
  refine ⟨rfl, rfl, (k.sample_shape _ _).trans hshape, ?bins, hnb.symm, ?_⟩
  case bins => simp [hbuffer, hnb, Packet.sample, Packet.bytes]
  cases hg : k.groups with
  | narrow g =>
    have hwide : r.wide = false := by rw [← hshape, hg, PacketGroups.isWide]
    have hmx : mx = k.bins.length + 3 := by simp [mx, hwide, hnb]
    refine ⟨?_, ?_, ?_, ?_, g, ?_, ?_, ?_, fun _ => congrArg PacketGroups.decode hg,
      fun h => absurd h (by simp [hwide])⟩
    all_goals simp [hbuffer, hmx, hnb, Packet.suffix_narrow hg, Nat.add_assoc, Packet.sample]
  | wide lo up =>
    have hwide : r.wide = true := by rw [← hshape, hg, PacketGroups.isWide]
    have hmx : mx = k.bins.length + 6 := by simp [mx, hwide, hnb]
    refine ⟨?_, ?_, ?_, ?_, lo, ?_, ?_, ?_, fun h => absurd h (by simp [hwide]),
      fun _ => ⟨up, ?_, ?_, ?_, congrArg PacketGroups.decode hg⟩⟩
    all_goals simp [hbuffer, hmx, hnb, Packet.suffix_wide hg, Nat.add_assoc, Packet.sample]

/-- Settles O17: both requests are packets with that sample, and a sample holds its whole packet
(`Packet.sample_inj`). -/
theorem sampleDeterminesRequest : Obligations.SampleDeterminesRequest := by
  intro p r₁ r₂ d hraw₁ hraw₂ h₁ h₂
  obtain ⟨-, k₁, hk₁, hbuffer₁, rfl⟩ := (parse_eq_ok_sample (ops := r₁.operands) hraw₁).mp h₁
  obtain ⟨-, k₂, hk₂, hbuffer₂, hsample⟩ := (parse_eq_ok_sample (ops := r₂.operands) hraw₂).mp h₂
  obtain ⟨hmode, hts, rfl⟩ := Packet.sample_inj hsample
  have hwide : r₁.wide = r₂.wide := hk₁.groups.symm.trans hk₂.groups
  have hraw : r₁.raw = r₂.raw := hbuffer₁.trans hbuffer₂.symm
  cases r₁
  cases r₂
  rw [Request.mk.injEq]
  exact ⟨ScanMode.ofCode_injective hmode, hwide, rfl, hts, hraw⟩

/-- Settles O34: a step that takes a request away adds a response
(`stepAnswersExactlyOneTransaction`). -/
theorem hostRunsDeliverResponsesOnly : Obligations.HostRunsDeliverResponsesOnly := by
  intro s t hs hstep
  cases hp : s.pending with
  | nil =>
    rw [step_of_pending_nil hp] at hstep
    cases hstep
    exact hs
  | cons u rest =>
    obtain ⟨hpending, hdelivered⟩ := hs
    rw [hp, List.forall_mem_cons] at hpending
    obtain ⟨-, hrest, o, hadd, ho⟩ := stepAnswersExactlyOneTransaction s t u rest hp hstep
    refine ⟨hrest ▸ hpending.2, ?_⟩
    rw [hadd, List.forall_mem_append]
    exact ⟨hdelivered, by simpa [ho] using hpending.1⟩

end Sys2Proof.Machine
end

section
/-! The errors of `PARSE` (60_exceptions): which it answers, and the row and the step that meet a
Disabled request. -/

namespace Sys2Proof.Machine

/-- Every error answer: `InvalidMode` for the mode Disabled, or in an active mode the length error. A
body answers no error. -/
theorem parse_eq_err_iff {p : Params} {mode : ScanMode} {wide : Bool} {ops : ParseOperands}
    {e : ParseError} :
    parse p mode wide ops = .ok (.err e) ↔
      (mode = .disabled ∧ e = .invalidMode) ∨
      (mode ≠ .disabled ∧ ops.raw.length ≠ expectedLength p wide ∧
        e = .truncatedPacket (expectedLength p wide) ops.raw.length) := by
  rw [parse_eq_ok]
  constructor
  · rintro (⟨hmode, herr⟩ | ⟨hmode, hlen, herr⟩ | ⟨-, -, -, d, -, hok⟩ | ⟨-, -, -, d, -, hok⟩)
    · exact .inl ⟨hmode, Response.err.inj herr⟩
    · exact .inr ⟨hmode, hlen, Response.err.inj herr⟩
    · cases hok
    · cases hok
  · rintro (⟨hmode, rfl⟩ | ⟨hmode, hlen, rfl⟩)
    · exact .inl ⟨hmode, rfl⟩
    · exact .inr (.inl ⟨hmode, hlen, rfl⟩)

/-- The mode is checked before the length (60_exceptions R145). -/
@[simp] theorem parse_disabled (p : Params) (wide : Bool) (ops : ParseOperands) :
    parse p .disabled wide ops = .ok (.err .invalidMode) :=
  parse_eq_err_iff.mpr (.inl ⟨rfl, rfl⟩)

theorem exec_parseDis (wide : Bool) (ops : ParseOperands) (s : State) :
    exec (.parseDis wide ops) s = .next (s.deliver (.response (.err .invalidMode))) :=
  exec_ofFields_eq_deliver.mpr (parse_disabled s.params wide ops)

theorem step_disabled {s : State} {r : Request} {rest : List Transaction}
    (hmode : ScanMode.ofCode r.mode = .disabled) (hp : s.pending = .parse r :: rest) :
    step s =
      .next (State.deliver { s with pending := rest } (.response (.err .invalidMode))) := by
  rw [step_request hp, parseRequest, hmode, parse_disabled, answer]

end Sys2Proof.Machine
end

section
/-! The statements of 60_exceptions.md, settled. -/

namespace Sys2Proof.Machine

/-- Settles O14: of the four answers of `PARSE` two are errors (`parse_eq_err_iff`). -/
theorem errorsComeFromModeAndLengthOnly : Obligations.ErrorsComeFromModeAndLengthOnly := by
  intro p r e
  exact parse_eq_err_iff (ops := r.operands)

/-- Settles O8: the row of Disabled answers before it looks at the length or the contents
(`exec_parseDis`), and a step on a Disabled request reaches the same answer (`step_disabled`). -/
theorem disabledAlwaysAnswersInvalidMode : Obligations.DisabledAlwaysAnswersInvalidMode :=
  ⟨exec_parseDis, fun _ _ _ hmode hp => step_disabled hmode hp⟩

end Sys2Proof.Machine
end

section
/-! Runs over requests, and the shape bit (70_reset_and_hazards): what a step on an answered request
delivers, what a run over a list of them does, and what the length of a packet says of either shape. -/

namespace Sys2Proof.Machine

/-- A step on a request that `PARSE` answers takes the request away and delivers the answer. -/
theorem step_request_of_ok {s : State} {r : Request} {rest : List Transaction} {rsp : Response}
    (hp : s.pending = .parse r :: rest) (h : parseRequest s.params r = .ok rsp) :
    step s = .next (State.deliver { s with pending := rest } (.response rsp)) := by
  rw [step_request hp, h, answer]

/-- `PARSE` answers every request of a list when their buffers are canonical. -/
theorem exists_answers (p : Params) {rs : List Request} (hraw : ∀ r ∈ rs, r.raw.wf = true) :
    ∃ rsps, List.Forall₂ (fun r rsp => parseRequest p r = .ok rsp) rs rsps := by
  induction rs with
  | nil => exact ⟨[], .nil⟩
  | cons r rs ih =>
    obtain ⟨hr, hrs⟩ := List.forall_mem_cons.mp hraw
    obtain ⟨rsp, hrsp⟩ := parse_total p (.ofCode r.mode) r.wide (ops := r.operands) hr
    obtain ⟨rsps, hrsps⟩ := ih hrs
    exact ⟨rsp :: rsps, .cons hrsp hrsps⟩

/-- A run over answered requests, from any state in which they are first in line: it takes them away
and delivers their answers, in order, behind the earlier outputs. -/
theorem runCore_requests {s : State} {rs : List Request} {rsps : List Response}
    {rest : List Transaction} (hp : s.pending = rs.map .parse ++ rest)
    (h : List.Forall₂ (fun r rsp => parseRequest s.params r = .ok rsp) rs rsps) :
    runCore rs.length s =
      .next { s with pending := rest, delivered := s.delivered ++ rsps.map .response } := by
  induction rs generalizing s rsps with
  | nil =>
    cases h
    cases s
    simpa using hp
  | cons r rs ih =>
    cases h with
    | cons hrsp hrsps =>
      rw [List.length_cons, runCore_succ_of_next (step_request_of_ok hp hrsp), List.map_cons,
        List.append_cons]
      exact ih rfl hrsps

/-- A canonical buffer of the shape's length, in an active mode, is decoded with that shape. -/
theorem exists_sample_of_shape {p : Params} {mode : ScanMode} {wide : Bool} {ops : ParseOperands}
    (hraw : ops.raw.wf = true) (hmode : mode ≠ .disabled)
    (hlen : ops.raw.length = expectedLength p wide) :
    ∃ d, parse p mode wide ops = .ok (.ok d) ∧ d.shape = wide := by
  obtain ⟨k, hk, hbuffer⟩ := Packet.exists_of_buffer hraw hlen
  exact ⟨_, parse_buffer hmode hk hbuffer, (k.sample_shape mode ops.ts).trans hk.groups⟩

/-- The length that the other shape asks for. -/
theorem expectedLength_not (p : Params) (wide : Bool) :
    expectedLength p (!wide) = if wide then p.nbNarrow + 7 else p.nbWide + 10 := by
  cases wide <;> rfl

/-- The two shapes ask for one length exactly when their two lengths are one number. -/
theorem expectedLength_eq_not_iff {p : Params} {wide : Bool} :
    expectedLength p wide = expectedLength p (!wide) ↔ p.nbNarrow + 7 = p.nbWide + 10 := by
  cases wide with
  | false => rfl
  | true => exact eq_comm

end Sys2Proof.Machine
end

section
/-! The statements of 70_reset_and_hazards.md, settled. -/

namespace Sys2Proof.Machine

/-- Settles O15: the buffer has the length of its own shape, so the other shape decodes it
(`exists_sample_of_shape`) or answers the length error (`parse_eq_truncated_iff`) as the two lengths
agree or not. -/
theorem shapeBitIsTrusted : Obligations.ShapeBitIsTrusted := by
  intro p r hraw hmode hlen
  replace hlen : r.operands.raw.length = expectedLength p r.wide := hlen
  refine ⟨exists_sample_of_shape (ops := r.operands) hraw hmode hlen, fun hsame => ?_,
    fun hdiff => ?_⟩
  · exact exists_sample_of_shape (ops := r.operands) hraw hmode
      (hlen.trans (expectedLength_eq_not_iff.mpr hsame))
  · rw [← expectedLength_not]
    have hne : r.operands.raw.length ≠ expectedLength p (!r.wide) :=
      fun h => hdiff (expectedLength_eq_not_iff.mp (hlen.symm.trans h))
    exact (parse_eq_truncated_iff (ops := r.operands) hmode).mpr hne

/-- Settles O32: `PARSE` answers each of the requests (`exists_answers`), and the run delivers the
answers (`runCore_requests`). -/
theorem runAnswersEachRequestInOrder : Obligations.RunAnswersEachRequestInOrder := by
  intro p rs hraw
  obtain ⟨rsps, hrsps⟩ := exists_answers p hraw
  exact ⟨rsps, hrsps, runCore_requests (List.append_nil _).symm hrsps⟩

/-- Settles O27. -/
theorem idleStepChangesNothing : Obligations.IdleStepChangesNothing := by
  intro s hp
  exact step_of_pending_nil hp

/-- Settles O36: after reset the request is the only one in line, so the step is on it
(`step_request`). -/
theorem firstRequestAfterReset : Obligations.FirstRequestAfterReset := by
  intro s r
  have hp : (s.assertReset.present r).pending = [.parse r] := rfl
  exact step_request hp

end Sys2Proof.Machine
end
